-- ==== Sys2Proof/Word.lean ====
section
/-! DEFINITION. The word types of the CHIP-8 core (00_scope.md R8: all architectural values are unsigned). -/

namespace Sys2Proof

/-- `u8`: a general register, a timer, a byte of memory (00_scope.md R6, R8). -/
abbrev Byte := BitVec 8

/-- `u16`: an instruction word, I, PC, a stack slot (00_scope.md R6, R8). -/
abbrev Word := BitVec 16

/-- A register index in 0..15, selecting V0..VF (10_state.md R16). -/
abbrev Reg := Fin 16

/-- The index of VF, the flag register (10_state.md R17). -/
abbrev vf : Reg := 15

end Sys2Proof
end

