-- ==== Sys2Proof/Syntax.lean ====
section
/-! DEFINITION. The instructions of the CHIP-8 core: one constructor per row of spec/opcode_table.json
(30_encoding.md R55, R59), and the decoder's result, which is an instruction or `Invalid(w)` (R56).

An instruction carries its operands as 30_encoding.md R54 assembles them: register indices, the byte `kk`, the
address `nnn` already widened to 16 bits, the count `n`. `Instr.wellFormed` (WellFormed.lean) says which
values an encoding can hold. -/

namespace Sys2Proof

/-- The 34 operations of the opcode table (30_encoding.md R59). -/
inductive Instr where
  /-- 00E0: clear the display (44_display.md R113). -/
  | cls
  /-- 00EE: return from a subroutine (41_control.md R78). -/
  | ret
  /-- 1nnn: jump to `nnn` (41_control.md R79). -/
  | jp (nnn : Word)
  /-- 2nnn: call the subroutine at `nnn` (41_control.md R80). -/
  | call (nnn : Word)
  /-- 3xkk: skip if `Vx = kk` (41_control.md R81). -/
  | seImm (x : Reg) (kk : Byte)
  /-- 4xkk: skip if `Vx ≠ kk` (41_control.md R82). -/
  | sneImm (x : Reg) (kk : Byte)
  /-- 5xy0: skip if `Vx = Vy` (41_control.md R83). -/
  | seReg (x y : Reg)
  /-- 6xkk: load an immediate (42_alu.md R88). -/
  | ldImm (x : Reg) (kk : Byte)
  /-- 7xkk: add an immediate, no flag (42_alu.md R89). -/
  | addImm (x : Reg) (kk : Byte)
  /-- 8xy0: copy `Vy` to `Vx` (42_alu.md R90). -/
  | ldReg (x y : Reg)
  /-- 8xy1: bitwise or (42_alu.md R91). -/
  | orReg (x y : Reg)
  /-- 8xy2: bitwise and (42_alu.md R92). -/
  | andReg (x y : Reg)
  /-- 8xy3: bitwise exclusive or (42_alu.md R93). -/
  | xorReg (x y : Reg)
  /-- 8xy4: add with carry to VF (42_alu.md R94). -/
  | addReg (x y : Reg)
  /-- 8xy5: subtract, greater-than flag to VF (42_alu.md R95). -/
  | subReg (x y : Reg)
  /-- 8xy6: shift right; `y` is carried, not used (42_alu.md R96). -/
  | shr (x y : Reg)
  /-- 8xy7: reverse subtract (42_alu.md R97). -/
  | subn (x y : Reg)
  /-- 8xyE: shift left; `y` is carried, not used (42_alu.md R98). -/
  | shl (x y : Reg)
  /-- 9xy0: skip if `Vx ≠ Vy` (41_control.md R84). -/
  | sneReg (x y : Reg)
  /-- Annn: load I (43_memory_ops.md R101). -/
  | ldI (nnn : Word)
  /-- Bnnn: jump to `nnn + V0` (41_control.md R85). -/
  | jpV0 (nnn : Word)
  /-- Cxkk: a draw masked by `kk` (42_alu.md R99). -/
  | rnd (x : Reg) (kk : Byte)
  /-- Dxyn: draw an `n`-row sprite (44_display.md R114). -/
  | drw (x y : Reg) (n : Nat)
  /-- Ex9E: skip if the key named by `Vx` is latched (45_keys_timers.md R117). -/
  | skp (x : Reg)
  /-- ExA1: skip if the key named by `Vx` is not latched (45_keys_timers.md R118). -/
  | sknp (x : Reg)
  /-- Fx07: read the delay timer (45_keys_timers.md R122). -/
  | ldVxDt (x : Reg)
  /-- Fx0A: wait for a key (45_keys_timers.md R119). -/
  | ldVxK (x : Reg)
  /-- Fx15: set the delay timer (45_keys_timers.md R123). -/
  | ldDtVx (x : Reg)
  /-- Fx18: set the sound timer (45_keys_timers.md R124). -/
  | ldStVx (x : Reg)
  /-- Fx1E: add `Vx` to I (43_memory_ops.md R102). -/
  | addIVx (x : Reg)
  /-- Fx29: point I at a font glyph (43_memory_ops.md R103). -/
  | ldFVx (x : Reg)
  /-- Fx33: store decimal digits (43_memory_ops.md R104). -/
  | ldBVx (x : Reg)
  /-- Fx55: store V0..Vx (43_memory_ops.md R105). -/
  | ldMemVx (x : Reg)
  /-- Fx65: load V0..Vx (43_memory_ops.md R106). -/
  | ldVxMem (x : Reg)
  deriving DecidableEq, Repr

/-- The kind of an instruction, its operands left out: the index type of the cost parameter (40_cycle.md R71) and of
the opcode table's rows. -/
inductive InstrKind where
  | cls | ret | jp | call | seImm | sneImm | seReg | ldImm
  | addImm | ldReg | orReg | andReg | xorReg | addReg | subReg | shr
  | subn | shl | sneReg | ldI | jpV0 | rnd | drw | skp
  | sknp | ldVxDt | ldVxK | ldDtVx | ldStVx | addIVx | ldFVx | ldBVx
  | ldMemVx | ldVxMem
  deriving DecidableEq, Repr

/-- The kind of an instruction. -/
def Instr.kind : Instr → InstrKind
  | .cls => .cls
  | .ret => .ret
  | .jp _ => .jp
  | .call _ => .call
  | .seImm _ _ => .seImm
  | .sneImm _ _ => .sneImm
  | .seReg _ _ => .seReg
  | .ldImm _ _ => .ldImm
  | .addImm _ _ => .addImm
  | .ldReg _ _ => .ldReg
  | .orReg _ _ => .orReg
  | .andReg _ _ => .andReg
  | .xorReg _ _ => .xorReg
  | .addReg _ _ => .addReg
  | .subReg _ _ => .subReg
  | .shr _ _ => .shr
  | .subn _ _ => .subn
  | .shl _ _ => .shl
  | .sneReg _ _ => .sneReg
  | .ldI _ => .ldI
  | .jpV0 _ => .jpV0
  | .rnd _ _ => .rnd
  | .drw _ _ _ => .drw
  | .skp _ => .skp
  | .sknp _ => .sknp
  | .ldVxDt _ => .ldVxDt
  | .ldVxK _ => .ldVxK
  | .ldDtVx _ => .ldDtVx
  | .ldStVx _ => .ldStVx
  | .addIVx _ => .addIVx
  | .ldFVx _ => .ldFVx
  | .ldBVx _ => .ldBVx
  | .ldMemVx _ => .ldMemVx
  | .ldVxMem _ => .ldVxMem

/-- What the decoder answers (30_encoding.md R56): one of the 34 operations, or the explicit `Invalid(w)` variant, which
carries the whole word. -/
inductive Decoded where
  /-- A word of a known shape. -/
  | instr (i : Instr)
  /-- `Invalid(w)`: no known shape; executing it raises IllegalInstruction (60_exceptions.md R128). -/
  | invalid (w : Word)
  deriving DecidableEq, Repr

end Sys2Proof
end

