-- ==== Sys2Proof/Config.lean ====
section
/-! DEFINITION. What the spec leaves open (00_scope.md R6, 92_eei_decisions.md "Open parameters"): constants with no body, so that
nothing can be proved from a value of theirs. The parameters that have a default in the spec (FONT and
RSUB_UNDERFLOW_FAULTS) are in Machine/Params.lean. -/

namespace Sys2Proof

/-- `COST` (40_cycle.md R71): the abstract time cost of a completed step, one natural number per instruction kind.
OPEN in the spec; log entry 7. -/
opaque Config.cost : InstrKind → Nat

/-- `WAIT_POLL_COST` (40_cycle.md R69): the cost of a key-wait poll. OPEN in the spec; log entry 7. -/
opaque Config.waitPollCost : Nat

/-- `draw_u8()` (00_scope.md R12): the free 8-bit value of the `k`-th draw of a run. No law relates two draws;
log entry 5. -/
opaque Config.freeByte : Nat → Byte

end Sys2Proof
end

