-- ==== Sys2Proof/Decode.lean ====
section
/-! DEFINITION. The decoder, the encoder and the opcode table (30_encoding.md R52 to R59; spec/opcode_table.json). -/

namespace Sys2Proof

/-- `v[hi:lo]`: the field of bits `hi` down to `lo`, inclusive, read as an unsigned number (00_scope.md R7). -/
def field (w : Word) (hi lo : Nat) : Nat := w.toNat / 2 ^ lo % 2 ^ (hi - lo + 1)

/-- `op = w[15:12]`, the family (30_encoding.md R53). -/
def opOf (w : Word) : Nat := field w 15 12

/-- `x = w[11:8]`, the first register index (30_encoding.md R53). -/
def xOf (w : Word) : Reg := Fin.ofNat 16 (field w 11 8)

/-- `y = w[7:4]`, the second register index (30_encoding.md R53). -/
def yOf (w : Word) : Reg := Fin.ofNat 16 (field w 7 4)

/-- `n = w[3:0]`, the sprite length or sub-operation (30_encoding.md R53). -/
def nOf (w : Word) : Nat := field w 3 0

/-- `kk = w[7:0]`, the 8-bit immediate or sub-operation (30_encoding.md R53). -/
def kkOf (w : Word) : Byte := BitVec.ofNat 8 (field w 7 0)

/-- `nnn = w[11:0]`, widened to 16 bits with zero high bits (30_encoding.md R53, R54). -/
def nnnOf (w : Word) : Word := BitVec.ofNat 16 (field w 11 0)

/-- Family 8, by the low nibble (30_encoding.md R56). -/
def decodeAlu (w : Word) : Decoded :=
  match nOf w with
  | 0x0 => .instr (.ldReg (xOf w) (yOf w))
  | 0x1 => .instr (.orReg (xOf w) (yOf w))
  | 0x2 => .instr (.andReg (xOf w) (yOf w))
  | 0x3 => .instr (.xorReg (xOf w) (yOf w))
  | 0x4 => .instr (.addReg (xOf w) (yOf w))
  | 0x5 => .instr (.subReg (xOf w) (yOf w))
  | 0x6 => .instr (.shr (xOf w) (yOf w))
  | 0x7 => .instr (.subn (xOf w) (yOf w))
  | 0xE => .instr (.shl (xOf w) (yOf w))
  | _ => .invalid w

/-- Family F, by the low byte (30_encoding.md R56). -/
def decodeMisc (w : Word) : Decoded :=
  match field w 7 0 with
  | 0x07 => .instr (.ldVxDt (xOf w))
  | 0x0A => .instr (.ldVxK (xOf w))
  | 0x15 => .instr (.ldDtVx (xOf w))
  | 0x18 => .instr (.ldStVx (xOf w))
  | 0x1E => .instr (.addIVx (xOf w))
  | 0x29 => .instr (.ldFVx (xOf w))
  | 0x33 => .instr (.ldBVx (xOf w))
  | 0x55 => .instr (.ldMemVx (xOf w))
  | 0x65 => .instr (.ldVxMem (xOf w))
  | _ => .invalid w

/-- The total decoder of 30_encoding.md R56: every word is exactly one operation or `Invalid(w)`. -/
def decode (w : Word) : Decoded :=
  match opOf w with
  | 0x0 => if w = 0x00E0 then .instr .cls else if w = 0x00EE then .instr .ret else .invalid w
  | 0x1 => .instr (.jp (nnnOf w))
  | 0x2 => .instr (.call (nnnOf w))
  | 0x3 => .instr (.seImm (xOf w) (kkOf w))
  | 0x4 => .instr (.sneImm (xOf w) (kkOf w))
  | 0x5 => if nOf w = 0 then .instr (.seReg (xOf w) (yOf w)) else .invalid w
  | 0x6 => .instr (.ldImm (xOf w) (kkOf w))
  | 0x7 => .instr (.addImm (xOf w) (kkOf w))
  | 0x8 => decodeAlu w
  | 0x9 => if nOf w = 0 then .instr (.sneReg (xOf w) (yOf w)) else .invalid w
  | 0xA => .instr (.ldI (nnnOf w))
  | 0xB => .instr (.jpV0 (nnnOf w))
  | 0xC => .instr (.rnd (xOf w) (kkOf w))
  | 0xD => .instr (.drw (xOf w) (yOf w) (nOf w))
  | 0xE =>
    if field w 7 0 = 0x9E then .instr (.skp (xOf w))
    else if field w 7 0 = 0xA1 then .instr (.sknp (xOf w))
    else .invalid w
  | 0xF => decodeMisc w
  | _ => .invalid w

/-- The big-endian pair: the byte at the lower address is the high byte (20_memory.md R40). -/
def bigEndian (hi lo : Byte) : Word := hi ++ lo

/-- The byte at the lower address of a stored word (20_memory.md R40). -/
def highByte (w : Word) : Byte := BitVec.ofNat 8 (field w 15 8)

/-- The byte at the higher address of a stored word (20_memory.md R40). -/
def lowByte (w : Word) : Byte := BitVec.ofNat 8 (field w 7 0)

/-- Decoding program bytes: the first instruction and the bytes after it; `none` where fewer than two bytes are left
(30_encoding.md R52: every instruction is exactly 16 bits). -/
def decodeBytes : List Byte → Option (Decoded × List Byte)
  | hi :: lo :: rest => some (decode (bigEndian hi lo), rest)
  | _ => none

/-- Format NNN: op, then the 12-bit address (30_encoding.md R53). -/
def formatNNN (op : Nat) (nnn : Word) : Word := BitVec.ofNat 16 (op * 4096 + nnn.toNat % 4096)

/-- Format XKK: op, x, then the byte (30_encoding.md R53). -/
def formatXKK (op : Nat) (x : Reg) (kk : Byte) : Word := BitVec.ofNat 16 (op * 4096 + x.val * 256 + kk.toNat)

/-- Formats XYS and XYN: op, x, y, then the low nibble (30_encoding.md R53). -/
def formatXYN (op : Nat) (x y : Reg) (n : Nat) : Word :=
  BitVec.ofNat 16 (op * 4096 + x.val * 256 + y.val * 16 + n % 16)

/-- The word of an instruction, by its pattern in 30_encoding.md R55 (format XS is XKK with the sub-operation as the byte). -/
def encode : Instr → Word
  | .cls => 0x00E0
  | .ret => 0x00EE
  | .jp nnn => formatNNN 0x1 nnn
  | .call nnn => formatNNN 0x2 nnn
  | .seImm x kk => formatXKK 0x3 x kk
  | .sneImm x kk => formatXKK 0x4 x kk
  | .seReg x y => formatXYN 0x5 x y 0x0
  | .ldImm x kk => formatXKK 0x6 x kk
  | .addImm x kk => formatXKK 0x7 x kk
  | .ldReg x y => formatXYN 0x8 x y 0x0
  | .orReg x y => formatXYN 0x8 x y 0x1
  | .andReg x y => formatXYN 0x8 x y 0x2
  | .xorReg x y => formatXYN 0x8 x y 0x3
  | .addReg x y => formatXYN 0x8 x y 0x4
  | .subReg x y => formatXYN 0x8 x y 0x5
  | .shr x y => formatXYN 0x8 x y 0x6
  | .subn x y => formatXYN 0x8 x y 0x7
  | .shl x y => formatXYN 0x8 x y 0xE
  | .sneReg x y => formatXYN 0x9 x y 0x0
  | .ldI nnn => formatNNN 0xA nnn
  | .jpV0 nnn => formatNNN 0xB nnn
  | .rnd x kk => formatXKK 0xC x kk
  | .drw x y n => formatXYN 0xD x y n
  | .skp x => formatXKK 0xE x 0x9E
  | .sknp x => formatXKK 0xE x 0xA1
  | .ldVxDt x => formatXKK 0xF x 0x07
  | .ldVxK x => formatXKK 0xF x 0x0A
  | .ldDtVx x => formatXKK 0xF x 0x15
  | .ldStVx x => formatXKK 0xF x 0x18
  | .addIVx x => formatXKK 0xF x 0x1E
  | .ldFVx x => formatXKK 0xF x 0x29
  | .ldBVx x => formatXKK 0xF x 0x33
  | .ldMemVx x => formatXKK 0xF x 0x55
  | .ldVxMem x => formatXKK 0xF x 0x65

/-- The bytes of an instruction in the order they lie in memory (20_memory.md R40). -/
def encodeBytes (i : Instr) : List Byte := [highByte (encode i), lowByte (encode i)]

/-- The rows of spec/opcode_table.json: a kind, the mask of its fixed bits and the value the masked word must have. -/
def opcodeTable : List (InstrKind × Word × Word) :=
  [(.cls, 0xFFFF, 0x00E0), (.ret, 0xFFFF, 0x00EE), (.jp, 0xF000, 0x1000), (.call, 0xF000, 0x2000),
    (.seImm, 0xF000, 0x3000), (.sneImm, 0xF000, 0x4000), (.seReg, 0xF00F, 0x5000), (.ldImm, 0xF000, 0x6000),
    (.addImm, 0xF000, 0x7000), (.ldReg, 0xF00F, 0x8000), (.orReg, 0xF00F, 0x8001), (.andReg, 0xF00F, 0x8002),
    (.xorReg, 0xF00F, 0x8003), (.addReg, 0xF00F, 0x8004), (.subReg, 0xF00F, 0x8005), (.shr, 0xF00F, 0x8006),
    (.subn, 0xF00F, 0x8007), (.shl, 0xF00F, 0x800E), (.sneReg, 0xF00F, 0x9000)] ++
  [(.ldI, 0xF000, 0xA000), (.jpV0, 0xF000, 0xB000), (.rnd, 0xF000, 0xC000), (.drw, 0xF000, 0xD000),
    (.skp, 0xF0FF, 0xE09E), (.sknp, 0xF0FF, 0xE0A1), (.ldVxDt, 0xF0FF, 0xF007), (.ldVxK, 0xF0FF, 0xF00A),
    (.ldDtVx, 0xF0FF, 0xF015), (.ldStVx, 0xF0FF, 0xF018), (.addIVx, 0xF0FF, 0xF01E), (.ldFVx, 0xF0FF, 0xF029),
    (.ldBVx, 0xF0FF, 0xF033), (.ldMemVx, 0xF0FF, 0xF055), (.ldVxMem, 0xF0FF, 0xF065)]

/-- The instruction the decoder reads from the table's bits: `w` holds the word's bits as the table numbers them (bit 0
the least significant bit of the one word), every bit from `nbits` up is zero, and the word reaches the decoder as the
two bytes the core would fetch. `none` where the decoder answers `Invalid`. -/
def decodeTableWord (nbits w : Nat) : Option Instr :=
  let word : Word := BitVec.ofNat 16 (w % 2 ^ nbits)
  match decodeBytes [highByte word, lowByte word] with
  | some (.instr i, _) => some i
  | _ => none

end Sys2Proof
end

