-- ==== Sys2Proof/Machine/State.lean ====
section
/-! DEFINITION. The state of the block as one record of plain data (10_state.md R15), the fault record (60_exceptions.md
R126, R127), the state after power-on and reset (R31, R143), and the reasons a step of the MODEL can stop. -/

namespace Sys2Proof.Machine

/-- The kinds of fault the spec defines (60_exceptions.md R127). Raising one is a transition of the machine into mode
`faulted`, not a stop of the model. -/
inductive FaultKind where
  | illegalInstruction
  | addressOutOfRange
  | stackOverflow
  | stackUnderflow
  | keyIndexOutOfRange
  | arithmeticUnderflow
  deriving DecidableEq, Repr

/-- The `info` datum of a fault record, by cause (60_exceptions.md R127). -/
inductive FaultInfo where
  /-- IllegalInstruction: the word. -/
  | word (w : Word)
  /-- AddressOutOfRange: the first byte address at or above 4096. -/
  | address (a : Nat)
  /-- StackOverflow and StackUnderflow: SP. -/
  | pointer (sp : Byte)
  /-- KeyIndexOutOfRange: the value of Vx. -/
  | key (value : Byte)
  /-- ArithmeticUnderflow: the values of Vx and Vy. -/
  | operands (vx vy : Byte)
  deriving DecidableEq, Repr

/-- The fault record (60_exceptions.md R126). -/
structure FaultRecord where
  cause : FaultKind
  /-- The cause code of R127. -/
  code : Byte
  /-- The address of the faulting instruction: PC at the step's start. -/
  pc : Word
  /-- The fetched word; `none` if the fetch itself faulted. -/
  word : Option Word
  info : FaultInfo
  deriving DecidableEq, Repr

/-- The state of the core's fetch-decode-execute machine (10_state.md R27). -/
inductive Mode where
  /-- The next step fetches an instruction. -/
  | run
  /-- "Waiting for key", register `x` the wait target: the next step polls the keyboard. -/
  | waitKey (x : Reg)
  /-- A fault has been raised and not cleared by reset. -/
  | faulted (rec : FaultRecord)
  deriving DecidableEq, Repr

/-- The 4096-byte memory (20_memory.md R33), as the cells that differ from their reset contents: addresses strictly
rising, no cell equal to what an unlisted address reads as (`Memory.wf`). -/
abbrev Memory := List Host.Cell

/-- The framebuffer `disp[row][col]`: 32 rows of 64 pixels, `true` is on (10_state.md R25). -/
abbrev Grid := Vector (Vector Bool 64) 32

/-- The whole state of the block (10_state.md R15). `draws` is the model's own field (log entry 5). -/
structure State where
  /-- V0..VF (R16); VF is also the flag register (R17). -/
  v : Vector Byte 16
  /-- The address register I (R18). -/
  i : Word
  /-- The program counter (R19, R20). -/
  pc : Word
  /-- The delay timer (R21). -/
  dt : Byte
  /-- The sound timer (R22). -/
  st : Byte
  /-- The return-address slots (R23). -/
  stack : Vector Word 16
  /-- The stack pointer, legal values 0..16 (R24). -/
  sp : Byte
  /-- The byte memory (R29). -/
  mem : Memory
  /-- The framebuffer (R25). -/
  disp : Grid
  /-- The keyboard latches (R26). -/
  key : Vector Bool 16
  /-- The core's mode (R27). -/
  mode : Mode
  /-- The bytes of the most recent load, kept for reset (R28). -/
  image : List Byte
  /-- How many draws Cxkk has made: the index of the next free value (the model's own; log entry 5). -/
  draws : Nat
  deriving DecidableEq, Repr

/-- The grid with every pixel off (10_state.md R25). -/
def Grid.blank : Grid := Vector.replicate 32 (Vector.replicate 64 false)

/-- Power-on, before any load (70_reset_and_hazards.md R143, 10_state.md R31): the state `reset()` gives with the empty
image. Memory lists nothing: the font and the zeros are what unlisted addresses read as. -/
def State.reset : State where
  v := Vector.replicate 16 0
  i := 0
  pc := 0x200
  dt := 0
  st := 0
  stack := Vector.replicate 16 0
  sp := 0
  mem := []
  disp := Grid.blank
  key := Vector.replicate 16 false
  mode := .run
  image := []
  draws := 0

/-- Why a step of the model stops. The faults of the spec are no stops (they are entered as mode `faulted`). -/
inductive Fault where
  /-- CALL or RET found SP above 16, a value 10_state.md R24 does not allow and no rule gives a meaning. Raised by 2nnn
  and 00EE only; safe: no run from reset reaches such a state (log entry 8). -/
  | stackPointerIllegal (sp : Byte)
  deriving DecidableEq, Repr

/-- Why the model gives no meaning to a request. No instruction is refused. -/
inductive Refusal where
  /-- An instruction with no meaning in the model; no arm of exec uses it. Safe. -/
  | notModelled (mnemonic : String)
  /-- The host called key_pressed or key_released with an index above 15 (40_cycle.md R74). Raised by the host
  operations only; safe: the spec says such a call is refused. -/
  | keyIndex (k : Nat)
  /-- The host called load_program with more than 3584 bytes (70_reset_and_hazards.md R144). Raised by the host
  operation only; safe: the spec says such a load is refused. -/
  | imageTooLong (length : Nat)
  deriving DecidableEq, Repr

end Sys2Proof.Machine
end

