-- ==== Sys2Proof/Machine/Params.lean ====
section
/-! DEFINITION. The parameters of 00_scope.md R6 that have a value or a default in the spec; the two with a default are the
fields of `Parameters`, an argument of the core cycle and of the host's operations. The OPEN ones are in Config.lean. -/

namespace Sys2Proof.Machine

/-- `MEM_SIZE`: the number of bytes of memory (00_scope.md R6). -/
def memSize : Nat := 4096

/-- `PROG_BASE`: where the image is loaded (00_scope.md R6). -/
def progBase : Nat := 0x200

/-- `MAX_IMAGE`: the longest image that fits (00_scope.md R6, 70_reset_and_hazards.md R144). -/
def maxImage : Nat := memSize - progBase

/-- `STACK_DEPTH`: the number of stack slots (00_scope.md R6). -/
def stackDepth : Nat := 16

/-- `DISP_W` (00_scope.md R6). -/
def dispWidth : Nat := 64

/-- `DISP_H` (00_scope.md R6). -/
def dispHeight : Nat := 32

/-- The table of 20_memory.md R39: glyph `d` is bytes `5d` to `5d + 4`. PRESUMED by the spec itself, from general
knowledge (decision D21); log entry 4. -/
def fontTable : List Byte :=
  [0xF0, 0x90, 0x90, 0x90, 0xF0] ++ [0x20, 0x60, 0x20, 0x20, 0x70] ++
  [0xF0, 0x10, 0xF0, 0x80, 0xF0] ++ [0xF0, 0x10, 0xF0, 0x10, 0xF0] ++
  [0x90, 0x90, 0xF0, 0x10, 0x10] ++ [0xF0, 0x80, 0xF0, 0x10, 0xF0] ++
  [0xF0, 0x80, 0xF0, 0x90, 0xF0] ++ [0xF0, 0x10, 0x20, 0x40, 0x40] ++
  [0xF0, 0x90, 0xF0, 0x90, 0xF0] ++ [0xF0, 0x90, 0xF0, 0x10, 0xF0] ++
  [0xF0, 0x90, 0xF0, 0x90, 0x90] ++ [0xE0, 0x90, 0xE0, 0x90, 0xE0] ++
  [0xF0, 0x80, 0x80, 0x80, 0xF0] ++ [0xE0, 0x90, 0x90, 0x90, 0xE0] ++
  [0xF0, 0x80, 0xF0, 0x80, 0xF0] ++ [0xF0, 0x80, 0xF0, 0x80, 0x80]

/-- The type of `FONT`: 80 bytes (20_memory.md R39). -/
abbrev Font := Vector Byte 80

/-- The default of `FONT`: the table of 20_memory.md R39. -/
def standardFont : Font := ⟨fontTable.toArray, rfl⟩

/-- The default of `RSUB_UNDERFLOW_FAULTS` (00_scope.md R6); log entry 9. -/
def rsubUnderflowFaults : Bool := false

/-- The parameters that have a default (00_scope.md R6; 92_eei_decisions.md, "Open parameters"): what a build of the block
fixes, and no state. -/
structure Parameters where
  /-- `FONT` (20_memory.md R39): what a reset writes at 0x000 (70_reset_and_hazards.md R141). -/
  font : Font := standardFont
  /-- `RSUB_UNDERFLOW_FAULTS` (42_alu.md R97): whether 8xy7 with `Vy < Vx` faults. -/
  rsubFaults : Bool := rsubUnderflowFaults
  deriving DecidableEq, Repr

/-- Every parameter at its default. -/
def Parameters.default : Parameters := {}

end Sys2Proof.Machine
end

