-- ==== Sys2Proof/Machine/Ops.lean ====
section
/-! DEFINITION. The named operations on the state: registers, PC, stack, keyboard latch, memory, and raising a fault
(00_scope.md R9 to R12; 10_state.md; 20_memory.md R41, R42; 60_exceptions.md R125 to R131). -/

namespace Sys2Proof.Machine

/-! ### Field writes -/

/-- `V[r]` (00_scope.md R9). -/
def State.reg (s : State) (r : Reg) : Byte := s.v[r.val]

/-- `V[r] <- b` (00_scope.md R9); no register is hard-wired (10_state.md R16). -/
def State.setReg (s : State) (r : Reg) (b : Byte) : State := { s with v := s.v.set r.val b }

/-- `I <- w`. -/
def State.setI (s : State) (w : Word) : State := { s with i := w }

/-- `PC <- w`. -/
def State.setPc (s : State) (w : Word) : State := { s with pc := w }

/-- `DT <- b`. -/
def State.setDt (s : State) (b : Byte) : State := { s with dt := b }

/-- `ST <- b`. -/
def State.setSt (s : State) (b : Byte) : State := { s with st := b }

/-- Replace the memory. -/
def State.setMem (s : State) (m : Memory) : State := { s with mem := m }

/-- Replace the framebuffer. -/
def State.setDisp (s : State) (g : Grid) : State := { s with disp := g }

/-- `key[k] <- b`. -/
def State.setKey (s : State) (k : Fin 16) (b : Bool) : State := { s with key := s.key.set k.val b }

/-- `mode <- m`. -/
def State.setMode (s : State) (m : Mode) : State := { s with mode := m }

/-! ### PC -/

/-- Add 2 to PC, mod 65536: the fetch's advance (40_cycle.md R67), and a skip's further 2 (41_control.md R77). -/
def State.advance (s : State) : State := s.setPc (s.pc + 2)

/-- The fetch's advance, then the skip if `b` (41_control.md R77). -/
def State.advanceSkip (s : State) (b : Bool) : State := if b then s.advance.advance else s.advance

/-! ### Raising a fault -/

/-- The cause codes of 60_exceptions.md R127. -/
def causeCode : FaultKind → Byte
  | .illegalInstruction => 1
  | .addressOutOfRange => 2
  | .stackOverflow => 3
  | .stackUnderflow => 4
  | .keyIndexOutOfRange => 5
  | .arithmeticUnderflow => 6

/-- Taking a fault (00_scope.md R11; 60_exceptions.md R125, R129, R131). `s` is the state at the step's start, PC still the
instruction's own address: the only change is the mode. The one way back is the host's reset or load
(`hostReset`, `hostLoad` in HostOps.lean). -/
def takeFault (s : State) (word : Option Word) (cause : FaultKind) (info : FaultInfo) : State :=
  s.setMode (.faulted { cause := cause, code := causeCode cause, pc := s.pc, word := word, info := info })

/-- Why an operation inside an instruction does not complete: it raises a fault of the spec, or the model stops. -/
inductive Abort where
  | raised (cause : FaultKind) (info : FaultInfo)
  | stopped (f : Fault)
  deriving DecidableEq, Repr

/-- End an instruction that can raise: its result is the next state, or the fault is taken from the state at the step's
start, with every write of the step undone (40_cycle.md R65). The record's word is the instruction's own
(log entry 10). -/
def conclude (s : State) (i : Instr) : Except Abort State → Host.Outcome State Fault Refusal
  | .ok t => .next t
  | .error (.raised cause info) => .next (takeFault s (some (encode i)) cause info)
  | .error (.stopped f) => .fault f

/-! ### Stack (10_state.md R24) -/

/-- `Push(a)`: StackOverflow on a full stack; else write at SP, then increment. -/
def push (s : State) (a : Word) : Except Abort State :=
  if s.sp = 16 then .error (.raised .stackOverflow (.pointer s.sp))
  else if h : s.sp.toNat < 16 then .ok { s with stack := s.stack.set s.sp.toNat a, sp := s.sp + 1 }
  else .error (.stopped (.stackPointerIllegal s.sp))

/-- `Pop()`: StackUnderflow on an empty stack; else decrement SP, then read. -/
def pop (s : State) : Except Abort (Word × State) :=
  if s.sp = 0 then .error (.raised .stackUnderflow (.pointer s.sp))
  else if h : (s.sp - 1).toNat < 16 then .ok (s.stack[(s.sp - 1).toNat], { s with sp := s.sp - 1 })
  else .error (.stopped (.stackPointerIllegal s.sp))

/-! ### Keyboard latch -/

/-- `ReadClear(k)` (45_keys_timers.md R116): the latch's value, and the state with the latch cleared. -/
def readClear (s : State) (k : Fin 16) : Bool × State := (s.key[k.val], s.setKey k false)

/-- The lowest latched key, scanning from 0 up (40_cycle.md R69). -/
def lowestLatched (keys : Vector Bool 16) : Option (Fin 16) := (List.finRange 16).find? fun k => keys[k.val]

/-! ### Draws -/

/-- `draw_u8()` (00_scope.md R12): the next free value, and the state that has used it. -/
def drawByte (s : State) : Byte × State := (Config.freeByte s.draws, { s with draws := s.draws + 1 })

/-! ### Memory -/

/-- What an unlisted address reads as: its reset contents under the default `FONT`, the table at 0x000..0x04F and zero
elsewhere (20_memory.md R35, R39; 10_state.md R31; log entry 3). Another `FONT` stands in memory as listed cells. -/
def unlistedByte (a : Nat) : Byte := fontTable.getD a 0

/-- `mem[a]`, for an address in range. -/
def Memory.read : Memory → Nat → Byte
  | [], a => unlistedByte a
  | c :: m, a => if c.1 = a then c.2 else Memory.read m a

/-- Insert a cell before the first cell of a higher address. -/
def Memory.insertCell : Memory → Host.Cell → Memory
  | [], c => [c]
  | d :: m, c => if c.1 < d.1 then c :: d :: m else d :: Memory.insertCell m c

/-- `mem[a] <- b`, keeping the canonical form: any cell of `a` is dropped, and a new one is listed unless `b` is what an
unlisted address reads as. -/
def Memory.write (m : Memory) (a : Nat) (b : Byte) : Memory :=
  let rest : Memory := m.filter fun c => c.1 != a
  if b = unlistedByte a then rest else Memory.insertCell rest (a, b)

/-- The canonical form: addresses in range and strictly rising, no cell equal to what an unlisted address reads as. -/
def Memory.wf : Memory → Bool
  | [] => true
  | c :: m =>
    decide (c.1 < memSize) && decide (c.2 ≠ unlistedByte c.1) && m.all (fun d => decide (c.1 < d.1)) && Memory.wf m

/-- The bytes at `a`, `a + 1`, ..., `a + n - 1`, for addresses in range. -/
def Memory.readBytes (m : Memory) (a : Nat) : Nat → List Byte
  | 0 => []
  | n + 1 => m.read a :: m.readBytes (a + 1) n

/-- Write bytes at `a`, `a + 1`, ..., in ascending order, for addresses in range. -/
def Memory.writeBytes (m : Memory) (a : Nat) : List Byte → Memory
  | [] => m
  | b :: bs => (m.write a b).writeBytes (a + 1) bs

/-- The first byte address at or above 4096 among `a`, ..., `a + n - 1`, if there is one. Addresses are exact natural
numbers, never reduced (20_memory.md R41; 92_eei_decisions.md D2, D37). -/
def firstOutOfRange (a n : Nat) : Option Nat :=
  if n = 0 ∨ a + n ≤ memSize then none else some (max a memSize)

/-- `MemRead` of each of `n` consecutive bytes (20_memory.md R41). -/
def loadBytes (m : Memory) (a n : Nat) : Except Abort (List Byte) :=
  match firstOutOfRange a n with
  | some bad => .error (.raised .addressOutOfRange (.address bad))
  | none => .ok (m.readBytes a n)

/-- `MemWrite` of consecutive bytes, every address checked before any is written (20_memory.md R42). -/
def storeBytes (m : Memory) (a : Nat) (bs : List Byte) : Except Abort Memory :=
  match firstOutOfRange a bs.length with
  | some bad => .error (.raised .addressOutOfRange (.address bad))
  | none => .ok (m.writeBytes a bs)

/-- `MemRead(a, 2)`: the big-endian pair of the fetch, or the first address out of range (20_memory.md R40, R41;
40_cycle.md R66). -/
def fetchWord (m : Memory) (a : Nat) : Except Nat Word :=
  match firstOutOfRange a 2 with
  | some bad => .error bad
  | none => .ok (bigEndian (m.read a) (m.read (a + 1)))

end Sys2Proof.Machine
end

