-- ==== Sys2Proof/Machine/Flags.lean ====
section
/-! DEFINITION. The flag computations (10_state.md R17): each is what VF receives. -/

namespace Sys2Proof.Machine

/-- `bool2u8(b)` (00_scope.md R8). -/
def bool2u8 (b : Bool) : Byte := if b then 1 else 0

/-- Carry out of 8 bits: `vx + vy > 255` (42_alu.md R94). -/
def carryFlag (vx vy : Byte) : Byte := bool2u8 (decide (vx.toNat + vy.toNat > 255))

/-- Strictly greater: `a > b`, unsigned (42_alu.md R95, R97); equal operands give 0. -/
def greaterFlag (a b : Byte) : Byte := bool2u8 (decide (a.toNat > b.toNat))

/-- The bit a right shift by one drops: bit 0 (42_alu.md R96). -/
def shiftOutRight (b : Byte) : Byte := bool2u8 (decide (b.toNat % 2 = 1))

/-- The bit a left shift by one drops: bit 7 (42_alu.md R98). -/
def shiftOutLeft (b : Byte) : Byte := bool2u8 (decide (b.toNat / 128 = 1))

/-- Write a result to `V[x]`, then the flag to VF, last (42_alu.md R87): with `x = F` the flag stays. -/
def State.setResultFlag (s : State) (x : Reg) (result flag : Byte) : State := (s.setReg x result).setReg vf flag

end Sys2Proof.Machine
end

