-- ==== Sys2Proof/Machine/Alu.lean ====
section
/-! DEFINITION. Register loads and ALU (42_alu.md). Sources are read from the state before the instruction; the result is
written first and VF last (R87). -/

namespace Sys2Proof.Machine

/-- 6xkk (42_alu.md R88): `V[x] <- kk`. -/
def execLdImm (x : Reg) (kk : Byte) (s : State) : Host.Outcome State Fault Refusal :=
  .next (s.advance.setReg x kk)

/-- 7xkk (42_alu.md R89): `V[x] <- V[x] +8 kk`, no flag. -/
def execAddImm (x : Reg) (kk : Byte) (s : State) : Host.Outcome State Fault Refusal :=
  .next (s.advance.setReg x (s.reg x + kk))

/-- 8xy0 (42_alu.md R90): `V[x] <- V[y]`. -/
def execLdReg (x y : Reg) (s : State) : Host.Outcome State Fault Refusal :=
  .next (s.advance.setReg x (s.reg y))

/-- 8xy1 (42_alu.md R91): `V[x] <- V[x] | V[y]`, VF kept. -/
def execOrReg (x y : Reg) (s : State) : Host.Outcome State Fault Refusal :=
  .next (s.advance.setReg x (s.reg x ||| s.reg y))

/-- 8xy2 (42_alu.md R92): `V[x] <- V[x] & V[y]`, VF kept. -/
def execAndReg (x y : Reg) (s : State) : Host.Outcome State Fault Refusal :=
  .next (s.advance.setReg x (s.reg x &&& s.reg y))

/-- 8xy3 (42_alu.md R93): `V[x] <- V[x] ^ V[y]`, VF kept. -/
def execXorReg (x y : Reg) (s : State) : Host.Outcome State Fault Refusal :=
  .next (s.advance.setReg x (s.reg x ^^^ s.reg y))

/-- 8xy4 (42_alu.md R94): `V[x] <- vx +8 vy; V[F] <- carry`. -/
def execAddReg (x y : Reg) (s : State) : Host.Outcome State Fault Refusal :=
  .next (s.advance.setResultFlag x (s.reg x + s.reg y) (carryFlag (s.reg x) (s.reg y)))

/-- 8xy5 (42_alu.md R95): `V[x] <- vx -8 vy; V[F] <- vx > vy`. -/
def execSubReg (x y : Reg) (s : State) : Host.Outcome State Fault Refusal :=
  .next (s.advance.setResultFlag x (s.reg x - s.reg y) (greaterFlag (s.reg x) (s.reg y)))

/-- 8xy6 (42_alu.md R96): `V[x] <- vx >> 1; V[F] <- vx[0]`. `y` is not used (30_encoding.md R57). -/
def execShr (x _y : Reg) (s : State) : Host.Outcome State Fault Refusal :=
  .next (s.advance.setResultFlag x (s.reg x >>> 1) (shiftOutRight (s.reg x)))

/-- The reverse subtract of 42_alu.md R97, for either value of `RSUB_UNDERFLOW_FAULTS`. -/
def reverseSubtract (faults : Bool) (x y : Reg) (s : State) : Except Abort State :=
  if faults = true ∧ (s.reg y).toNat < (s.reg x).toNat then
    .error (.raised .arithmeticUnderflow (.operands (s.reg x) (s.reg y)))
  else .ok (s.advance.setResultFlag x (s.reg y - s.reg x) (greaterFlag (s.reg y) (s.reg x)))

/-- 8xy7 (42_alu.md R97): `V[x] <- vy -8 vx; V[F] <- vy > vx`, at the parameter's default (`execWith` in Cycle.lean runs it
at either value). -/
def execSubn (x y : Reg) (s : State) : Host.Outcome State Fault Refusal :=
  conclude s (.subn x y) (reverseSubtract rsubUnderflowFaults x y s)

/-- 8xyE (42_alu.md R98): `V[x] <- (vx << 1) mod 256; V[F] <- vx[7]`. `y` is not used (30_encoding.md R57). -/
def execShl (x _y : Reg) (s : State) : Host.Outcome State Fault Refusal :=
  .next (s.advance.setResultFlag x (s.reg x <<< 1) (shiftOutLeft (s.reg x)))

/-- Cxkk (42_alu.md R99): `V[x] <- draw & kk`, the draw a free value (log entry 5). -/
def execRnd (x : Reg) (kk : Byte) (s : State) : Host.Outcome State Fault Refusal :=
  .next ((drawByte s.advance).2.setReg x ((drawByte s.advance).1 &&& kk))

end Sys2Proof.Machine
end

