-- ==== Sys2Proof/Machine/Operands.lean ====
section
/-! DEFINITION. The operand forms (30_encoding.md R54, 43_memory_ops.md R107): a register, a widened value, the I-indexed block, the
block of registers V0..Vx, a key named by a register. -/

namespace Sys2Proof.Machine

/-- `zext_16(b)` (00_scope.md R8). -/
def zext16 (b : Byte) : Word := b.setWidth 16

/-- The address of byte 0 of an I-indexed block; byte `k` is at this plus `k`, an exact natural number
(43_memory_ops.md R107). -/
def State.blockBase (s : State) : Nat := s.i.toNat

/-- The values of V0..Vx, in ascending register order (43_memory_ops.md R105). -/
def State.regBlock (s : State) (x : Reg) : List Byte := s.v.toList.take (x.val + 1)

/-- `V[i] <- bs[i]` for every index the list has (43_memory_ops.md R106). -/
def State.setRegBlock (s : State) (bs : List Byte) : State :=
  { s with v := Vector.ofFn fun r : Fin 16 => bs.getD r.val (s.reg r) }

/-- The decimal digits of a byte: hundreds, tens, ones (43_memory_ops.md R104). -/
def decimalDigits (b : Byte) : List Byte :=
  [BitVec.ofNat 8 (b.toNat / 100), BitVec.ofNat 8 (b.toNat / 10 % 10), BitVec.ofNat 8 (b.toNat % 10)]

/-- The key a register's value names; a value above 15 raises KeyIndexOutOfRange (45_keys_timers.md R117, R118). -/
def keyNamed (b : Byte) : Except Abort (Fin 16) :=
  if h : b.toNat < 16 then .ok ⟨b.toNat, h⟩ else .error (.raised .keyIndexOutOfRange (.key b))

end Sys2Proof.Machine
end

