-- ==== Sys2Proof/Machine/Control.lean ====
section
/-! DEFINITION. Control transfer and skips (41_control.md). Each meaning runs from the state at the step's start, PC the
instruction's own address, and does the fetch's advance itself (40_cycle.md R67; log entry 11). -/

namespace Sys2Proof.Machine

/-- 00EE (41_control.md R78): `PC <- Pop()`. -/
def execRet (s : State) : Host.Outcome State Fault Refusal :=
  conclude s .ret ((pop s.advance).map fun r => r.2.setPc r.1)

/-- 1nnn (41_control.md R79): `PC <- nnn`. -/
def execJp (nnn : Word) (s : State) : Host.Outcome State Fault Refusal := .next (s.advance.setPc nnn)

/-- 2nnn (41_control.md R80): push the advanced PC, then `PC <- nnn`. -/
def execCall (nnn : Word) (s : State) : Host.Outcome State Fault Refusal :=
  conclude s (.call nnn) ((push s.advance s.advance.pc).map fun t => t.setPc nnn)

/-- 3xkk (41_control.md R81): skip if `V[x] = kk`. -/
def execSeImm (x : Reg) (kk : Byte) (s : State) : Host.Outcome State Fault Refusal :=
  .next (s.advanceSkip (decide (s.reg x = kk)))

/-- 4xkk (41_control.md R82): skip if `V[x] ≠ kk`. -/
def execSneImm (x : Reg) (kk : Byte) (s : State) : Host.Outcome State Fault Refusal :=
  .next (s.advanceSkip (decide (s.reg x ≠ kk)))

/-- 5xy0 (41_control.md R83): skip if `V[x] = V[y]`. -/
def execSeReg (x y : Reg) (s : State) : Host.Outcome State Fault Refusal :=
  .next (s.advanceSkip (decide (s.reg x = s.reg y)))

/-- 9xy0 (41_control.md R84): skip if `V[x] ≠ V[y]`. -/
def execSneReg (x y : Reg) (s : State) : Host.Outcome State Fault Refusal :=
  .next (s.advanceSkip (decide (s.reg x ≠ s.reg y)))

/-- Bnnn (41_control.md R85): `PC <- nnn + V0`. -/
def execJpV0 (nnn : Word) (s : State) : Host.Outcome State Fault Refusal :=
  .next (s.advance.setPc (nnn + zext16 (s.reg 0)))

end Sys2Proof.Machine
end

