-- ==== Sys2Proof/Machine/Display.lean ====
section
/-! DEFINITION. The display controller and its two instructions (44_display.md). -/

namespace Sys2Proof.Machine

/-- `disp[py][px]`; a coordinate off the grid has no pixel, and reads false. -/
def pixel (g : Grid) (px py : Nat) : Bool :=
  if h : px < 64 ∧ py < 32 then (g[py]'h.2)[px]'h.1 else false

/-- `disp[py][px] <- not disp[py][px]`; off the grid nothing changes (44_display.md R110). -/
def togglePixel (g : Grid) (px py : Nat) : Grid :=
  if h : px < 64 ∧ py < 32 then g.set py ((g[py]'h.2).set px (!(g[py]'h.2)[px]'h.1) h.1) h.2 else g

/-- The pixel under column `c` of a sprite row: bit `7 - c`, bit 7 leftmost (44_display.md R109). -/
def spriteBit (row : Byte) (c : Nat) : Bool := row.getLsbD (7 - c)

/-- One sprite bit at an exact coordinate (44_display.md R109): a set bit toggles its pixel, and collides if the pixel was
on. Off the grid it does neither (R110). -/
def blitBit (row : Byte) (px py c : Nat) (acc : Grid × Bool) : Grid × Bool :=
  if spriteBit row c then (togglePixel acc.1 (px + c) py, acc.2 || pixel acc.1 (px + c) py) else acc

/-- One sprite row, columns 0 to 7. -/
def blitRow (row : Byte) (px py : Nat) (acc : Grid × Bool) : Grid × Bool :=
  (List.range 8).foldl (fun acc c => blitBit row px py c acc) acc

/-- Sprite rows at `py`, `py + 1`, ... -/
def blitRows : List Byte → Nat → Nat → Grid × Bool → Grid × Bool
  | [], _, _, acc => acc
  | row :: rows, px, py, acc => blitRows rows px (py + 1) (blitRow row px py acc)

/-- `DisplayDraw(x0, y0, rows)` (44_display.md R109): the new grid and the collision. Coordinates are exact natural
numbers, never wrapped (R110). -/
def displayDraw (g : Grid) (x0 y0 : Byte) (rows : List Byte) : Grid × Bool :=
  blitRows rows x0.toNat y0.toNat (g, false)

/-- `DisplayClear()` (44_display.md R108). -/
def displayClear : Grid := Vector.ofFn fun _ => Vector.ofFn fun _ => false

/-- 00E0 (44_display.md R113). -/
def execCls (s : State) : Host.Outcome State Fault Refusal := .next (s.advance.setDisp displayClear)

/-- Dxyn (44_display.md R114): the coordinates are read before VF is written; the range is checked before any pixel
changes; VF is written on every draw. -/
def execDrw (x y : Reg) (n : Nat) (s : State) : Host.Outcome State Fault Refusal :=
  conclude s (.drw x y n) ((loadBytes s.mem s.blockBase n).map fun rows =>
    let drawn := displayDraw s.disp (s.reg x) (s.reg y) rows
    (s.advance.setDisp drawn.1).setReg vf (bool2u8 drawn.2))

end Sys2Proof.Machine
end

