-- ==== Sys2Proof/Machine/KeysTimers.lean ====
section
/-! DEFINITION. The keyboard latch and the timers (45_keys_timers.md). -/

namespace Sys2Proof.Machine

/-- Ex9E (45_keys_timers.md R117): read and clear the key `V[x]` names; skip if it was latched. -/
def execSkp (x : Reg) (s : State) : Host.Outcome State Fault Refusal :=
  conclude s (.skp x) ((keyNamed (s.reg x)).map fun k => (readClear s k).2.advanceSkip (readClear s k).1)

/-- ExA1 (45_keys_timers.md R118): read and clear the key `V[x]` names; skip if it was not latched. -/
def execSknp (x : Reg) (s : State) : Host.Outcome State Fault Refusal :=
  conclude s (.sknp x) ((keyNamed (s.reg x)).map fun k => (readClear s k).2.advanceSkip (!(readClear s k).1))

/-- Fx07 (45_keys_timers.md R122): `V[x] <- DT`. -/
def execLdVxDt (x : Reg) (s : State) : Host.Outcome State Fault Refusal := .next (s.advance.setReg x s.dt)

/-- Fx0A (45_keys_timers.md R119): `mode <- WaitKey(x)`; this step does not poll. -/
def execLdVxK (x : Reg) (s : State) : Host.Outcome State Fault Refusal := .next (s.advance.setMode (.waitKey x))

/-- Fx15 (45_keys_timers.md R123): `DT <- V[x]`. -/
def execLdDtVx (x : Reg) (s : State) : Host.Outcome State Fault Refusal := .next (s.advance.setDt (s.reg x))

/-- Fx18 (45_keys_timers.md R124): `ST <- V[x]`. -/
def execLdStVx (x : Reg) (s : State) : Host.Outcome State Fault Refusal := .next (s.advance.setSt (s.reg x))

/-- The key-wait poll (40_cycle.md R69): the lowest latched key is consumed, its index goes to `V[x]` and the mode to
`run`; with no key latched nothing changes. -/
def pollKeys (x : Reg) (s : State) : State :=
  match lowestLatched s.key with
  | some k => (((readClear s k).2).setReg x (BitVec.ofNat 8 k.val)).setMode .run
  | none => s

/-- A timer one tick later: down by one, floored at zero (45_keys_timers.md R120). -/
def tickDown (t : Byte) : Byte := if t.toNat > 0 then t - 1 else t

end Sys2Proof.Machine
end

