-- ==== Sys2Proof/Machine/MemoryOps.lean ====
section
/-! DEFINITION. The address register and memory operations (43_memory_ops.md). No access changes I (R107). -/

namespace Sys2Proof.Machine

/-- Annn (43_memory_ops.md R101): `I <- nnn`. -/
def execLdI (nnn : Word) (s : State) : Host.Outcome State Fault Refusal := .next (s.advance.setI nnn)

/-- Fx1E (43_memory_ops.md R102): `I <- I +16 V[x]`, VF not written, no memory accessed. -/
def execAddIVx (x : Reg) (s : State) : Host.Outcome State Fault Refusal :=
  .next (s.advance.setI (s.i + zext16 (s.reg x)))

/-- Fx29 (43_memory_ops.md R103): `I <- 5 * V[x]`, no mask. -/
def execLdFVx (x : Reg) (s : State) : Host.Outcome State Fault Refusal :=
  .next (s.advance.setI (5 * zext16 (s.reg x)))

/-- Fx33 (43_memory_ops.md R104): the decimal digits of `V[x]` to I, I+1, I+2. -/
def execLdBVx (x : Reg) (s : State) : Host.Outcome State Fault Refusal :=
  conclude s (.ldBVx x) ((storeBytes s.mem s.blockBase (decimalDigits (s.reg x))).map fun m => s.advance.setMem m)

/-- Fx55 (43_memory_ops.md R105): V0..Vx to I..I+x. -/
def execLdMemVx (x : Reg) (s : State) : Host.Outcome State Fault Refusal :=
  conclude s (.ldMemVx x) ((storeBytes s.mem s.blockBase (s.regBlock x)).map fun m => s.advance.setMem m)

/-- Fx65 (43_memory_ops.md R106): V0..Vx from I..I+x. -/
def execLdVxMem (x : Reg) (s : State) : Host.Outcome State Fault Refusal :=
  conclude s (.ldVxMem x) ((loadBytes s.mem s.blockBase (x.val + 1)).map fun bs => s.advance.setRegBlock bs)

end Sys2Proof.Machine
end

