-- ==== Sys2Proof/Machine/Cycle.lean ====
section
/-! DEFINITION. The core cycle (40_cycle.md): the three kinds of step and the result each reports, and placing an instruction
where the next step fetches it. -/

namespace Sys2Proof.Machine

/-- The result of `instruction_step` (40_cycle.md R63). -/
inductive StepResult where
  /-- The step completed; its abstract time cost. -/
  | ok (cost : Nat)
  /-- The step raised a fault, or found one latched. -/
  | fault (rec : FaultRecord)
  deriving DecidableEq, Repr

/-- `cost(ins)` (40_cycle.md R71): a constant of the kind, except that Fx0A costs 0. It depends on no operand. -/
def cost (i : Instr) : Nat :=
  match i.kind with
  | .ldVxK => 0
  | k => Config.cost k

/-- What a step that ended in `t` reports: a latched fault's record, else the cost (40_cycle.md R63, R65). -/
def report (t : State) (c : Nat) : StepResult :=
  match t.mode with
  | .faulted r => .fault r
  | _ => .ok c

/-- Pair an instruction's next state with what its step reports. -/
def reportExec (i : Instr) : Host.Outcome State Fault Refusal → Host.Outcome (State × StepResult) Fault Refusal
  | .next t => .next (t, report t (cost i))
  | .fault f => .fault f
  | .refused r => .refused r

/-- `execute(ins)` under the given parameters: `exec`, but for 8xy7, whose one parameter is taken from `p` (42_alu.md R97). No
other instruction reads a parameter. -/
def execWith (p : Parameters) (i : Instr) (s : State) : Host.Outcome State Fault Refusal :=
  match i with
  | .subn x y => conclude s (.subn x y) (reverseSubtract p.rsubFaults x y s)
  | i => exec i s

/-- The run step (40_cycle.md R65): fetch, decode, advance PC and execute. A fetch out of range and an invalid word are
the first two faults in priority (60_exceptions.md R130). -/
def runStep (p : Parameters) (s : State) : Host.Outcome (State × StepResult) Fault Refusal :=
  match fetchWord s.mem s.pc.toNat with
  | .error bad =>
    let t := takeFault s none .addressOutOfRange (.address bad)
    .next (t, report t 0)
  | .ok w =>
    match decode w with
    | .instr i => reportExec i (execWith p i s)
    | .invalid w =>
      let t := takeFault s (some w) .illegalInstruction (.word w)
      .next (t, report t 0)

/-- `instruction_step()` (40_cycle.md R64): one instruction, one key-wait poll (R69), or, in mode `faulted`, the same
record again and no change (R70). -/
def instructionStep (s : State) (p : Parameters := Parameters.default) : Host.Outcome (State × StepResult) Fault Refusal :=
  match s.mode with
  | .run => runStep p s
  | .waitKey x => .next (pollKeys x s, .ok Config.waitPollCost)
  | .faulted r => .next (s, .fault r)

/-- The next state alone. -/
def dropReport : Host.Outcome (State × StepResult) Fault Refusal → Host.Outcome State Fault Refusal
  | .next r => .next r.1
  | .fault f => .fault f
  | .refused r => .refused r

/-- One `instruction_step()` under the given parameters, its reported result left out. -/
def stepWith (p : Parameters) (s : State) : Host.Outcome State Fault Refusal := dropReport (instructionStep s p)

/-- Where the next step fetches: PC, or 0x200 if the two bytes at PC are not both in memory. -/
def fetchAddress (s : State) : Nat := if s.pc.toNat + 2 ≤ memSize then s.pc.toNat else progBase

/-- `s` about to fetch and run the given word (log entry 13): the word's bytes stand where the next step fetches, and the
mode is `run`. Nothing else changes (PC only where no word can stand at it). -/
def placeWord (s : State) (w : Word) : State :=
  ((s.setMem (s.mem.writeBytes (fetchAddress s) [highByte w, lowByte w])).setMode .run).setPc
    (BitVec.ofNat 16 (fetchAddress s))

end Sys2Proof.Machine
end

