-- ==== Sys2Proof/Machine/Step.lean ====
section
/-! DEFINITION. One step of the core, `instruction_step()` (40_cycle.md R64), and the placing of one instruction before it. -/

namespace Sys2Proof.Machine

/-- One `instruction_step()` with every parameter at its default, its reported result left out (`instructionStep` has
it). -/
def step (s : State) : Host.Outcome State Fault Refusal := stepWith Parameters.default s

/-- `s` with the instruction of the table's bits `w` (its first `nbits` bits, the others zero) where `step` fetches next. -/
def State.withFetchWord (s : State) (nbits w : Nat) : State := placeWord s (BitVec.ofNat 16 (w % 2 ^ nbits))

end Sys2Proof.Machine
end

