-- ==== Sys2Proof/Machine/Printer.lean ====
section
/-! DEFINITION. The printed form of a decoded word, in the conventional syntax the spec adopts (30_encoding.md R60; decision
D38): registers `V0`..`VF`, immediates and addresses in hex, destination first. The syntax has no behaviour. -/

namespace Sys2Proof.Machine

/-- One hexadecimal digit, upper case. -/
def hexDigit (d : Nat) : String := ["0", "1", "2", "3", "4", "5", "6", "7", "8", "9", "A", "B", "C", "D", "E", "F"].getD d "?"

/-- A number in exactly `k` hexadecimal digits, most significant first. -/
def hexDigits : Nat → Nat → String
  | 0, _ => ""
  | k + 1, n => hexDigits k (n / 16) ++ hexDigit (n % 16)

/-- `V0`..`VF` (30_encoding.md R60). -/
def showReg (r : Reg) : String := "V" ++ hexDigit r.val

/-- An 8-bit immediate, two digits. -/
def showByte (b : Byte) : String := hexDigits 2 b.toNat

/-- A 12-bit address, three digits. -/
def showAddress (w : Word) : String := hexDigits 3 w.toNat

/-- A mnemonic and one operand. -/
def show1 (name a : String) : String := name ++ " " ++ a

/-- A mnemonic and two operands, the destination first. -/
def show2 (name a b : String) : String := name ++ " " ++ a ++ ", " ++ b

/-- The assembly text of an instruction (30_encoding.md R60). The optional operand of SHR and SHL is printed. -/
def showInstr : Instr → String
  | .cls => "CLS"
  | .ret => "RET"
  | .jp nnn => show1 "JP" (showAddress nnn)
  | .call nnn => show1 "CALL" (showAddress nnn)
  | .seImm x kk => show2 "SE" (showReg x) (showByte kk)
  | .sneImm x kk => show2 "SNE" (showReg x) (showByte kk)
  | .seReg x y => show2 "SE" (showReg x) (showReg y)
  | .ldImm x kk => show2 "LD" (showReg x) (showByte kk)
  | .addImm x kk => show2 "ADD" (showReg x) (showByte kk)
  | .ldReg x y => show2 "LD" (showReg x) (showReg y)
  | .orReg x y => show2 "OR" (showReg x) (showReg y)
  | .andReg x y => show2 "AND" (showReg x) (showReg y)
  | .xorReg x y => show2 "XOR" (showReg x) (showReg y)
  | .addReg x y => show2 "ADD" (showReg x) (showReg y)
  | .subReg x y => show2 "SUB" (showReg x) (showReg y)
  | .shr x y => show2 "SHR" (showReg x) (showReg y)
  | .subn x y => show2 "SUBN" (showReg x) (showReg y)
  | .shl x y => show2 "SHL" (showReg x) (showReg y)
  | .sneReg x y => show2 "SNE" (showReg x) (showReg y)
  | .ldI nnn => show2 "LD" "I" (showAddress nnn)
  | .jpV0 nnn => show2 "JP" "V0" (showAddress nnn)
  | .rnd x kk => show2 "RND" (showReg x) (showByte kk)
  | .drw x y n => show2 "DRW" (showReg x) (showReg y) ++ ", " ++ hexDigit n
  | .skp x => show1 "SKP" (showReg x)
  | .sknp x => show1 "SKNP" (showReg x)
  | .ldVxDt x => show2 "LD" (showReg x) "DT"
  | .ldVxK x => show2 "LD" (showReg x) "K"
  | .ldDtVx x => show2 "LD" "DT" (showReg x)
  | .ldStVx x => show2 "LD" "ST" (showReg x)
  | .addIVx x => show2 "ADD" "I" (showReg x)
  | .ldFVx x => show2 "LD" "F" (showReg x)
  | .ldBVx x => show2 "LD" "B" (showReg x)
  | .ldMemVx x => show2 "LD" "[I]" (showReg x)
  | .ldVxMem x => show2 "LD" (showReg x) "[I]"

/-- The printed form of a decoded word; `Invalid(w)` prints as a data word (30_encoding.md R60). -/
def showDecoded : Decoded → String
  | .instr i => showInstr i
  | .invalid w => "DW 0x" ++ hexDigits 4 w.toNat

end Sys2Proof.Machine
end

