-- ==== Sys2Proof/Machine/HostOps.lean ====
section
/-! DEFINITION. The host's eight operations (40_cycle.md R62), each one atomic transition of the whole state (00_scope.md
R5), and a run under a schedule of them (40_cycle.md R73). -/

namespace Sys2Proof.Machine

/-- The host operations (40_cycle.md R62). -/
inductive HostOp where
  | loadProgram (bytes : List Byte)
  | reset
  | keyPressed (k : Nat)
  | keyReleased (k : Nat)
  | instructionStep
  | frequencyStep
  | pixelStates
  | soundOn
  deriving DecidableEq, Repr

/-- What an operation returns to the host (40_cycle.md R62, "result"). -/
inductive HostResult where
  | none
  | step (r : StepResult)
  | grid (g : Grid)
  | sound (on : Bool)
  deriving DecidableEq, Repr

/-- `reset()` (70_reset_and_hazards.md R141): every element of the spec's state back to its reset value, memory to zero, then
`FONT` at 0x000, then the image at 0x200; the image stays. The model's own counter of draws stays too (log entry 6). -/
def hostReset (s : State) (p : Parameters := Parameters.default) : State :=
  { State.reset with
    mem := (Memory.writeBytes [] 0 p.font.toList).writeBytes progBase s.image
    image := s.image
    draws := s.draws }

/-- Power-on, before any load (70_reset_and_hazards.md R143): what `reset()` gives with the empty image. With the default
parameters it is `State.reset` (`powerOn_default` in Laws/Step.lean). -/
def powerOn (p : Parameters) : State := hostReset State.reset p

/-- `load_program(bytes)` (70_reset_and_hazards.md R142): remember the image, then reset. An image that does not fit is
refused (R144). -/
def hostLoad (bytes : List Byte) (s : State) (p : Parameters := Parameters.default) : Host.Outcome State Fault Refusal :=
  if bytes.length ≤ maxImage then .next (hostReset { s with image := bytes } p)
  else .refused (.imageTooLong bytes.length)

/-- `key_pressed(k)` and `key_released(k)` (45_keys_timers.md R115); an index above 15 is refused (40_cycle.md R74). -/
def hostKey (k : Nat) (down : Bool) (s : State) : Host.Outcome State Fault Refusal :=
  if h : k < 16 then .next (s.setKey ⟨k, h⟩ down) else .refused (.keyIndex k)

/-- `frequency_step()` (45_keys_timers.md R120): the same in every mode. -/
def frequencyStep (s : State) : State := (s.setDt (tickDown s.dt)).setSt (tickDown s.st)

/-- `pixel_states()` (44_display.md R112). -/
def pixelStates (s : State) : Grid := s.disp

/-- `sound_on()` (45_keys_timers.md R121). -/
def soundOn (s : State) : Bool := decide (s.st.toNat > 0)

/-- Pair a next state with an empty result. -/
def silent : Host.Outcome State Fault Refusal → Host.Outcome (State × HostResult) Fault Refusal
  | .next t => .next (t, .none)
  | .fault f => .fault f
  | .refused r => .refused r

/-- Pair a step's result with its next state. -/
def reportStep : Host.Outcome (State × StepResult) Fault Refusal → Host.Outcome (State × HostResult) Fault Refusal
  | .next (t, r) => .next (t, .step r)
  | .fault f => .fault f
  | .refused r => .refused r

/-- One host operation: the next state and what the host is told (40_cycle.md R62). The parameters are the
block's; no operation changes them. -/
def hostOp (op : HostOp) (s : State) (p : Parameters := Parameters.default) : Host.Outcome (State × HostResult) Fault Refusal :=
  match op with
  | .loadProgram bytes => silent (hostLoad bytes s p)
  | .reset => .next (hostReset s p, .none)
  | .keyPressed k => silent (hostKey k true s)
  | .keyReleased k => silent (hostKey k false s)
  | .instructionStep => reportStep (instructionStep s p)
  | .frequencyStep => .next (frequencyStep s, .none)
  | .pixelStates => .next (s, .grid (pixelStates s))
  | .soundOn => .next (s, .sound (soundOn s))

/-- A run under a schedule of host operations, in order, one at a time (40_cycle.md R73): the last state and the results,
or the first refusal or stop. -/
def runSchedule (ops : List HostOp) (s : State) (p : Parameters := Parameters.default) :
    Host.Outcome (State × List HostResult) Fault Refusal :=
  match ops with
  | [] => .next (s, [])
  | op :: ops =>
    match hostOp op s p with
    | .next (t, r) =>
      match runSchedule ops t p with
      | .next (u, rs) => .next (u, r :: rs)
      | .fault f => .fault f
      | .refused q => .refused q
    | .fault f => .fault f
    | .refused q => .refused q

end Sys2Proof.Machine
end

