-- ==== Sys2Proof/Safety.lean ====
section
/-! DEFINITION. What claims speak of: the invariant of the machine's states, safe steps, and what a transition leaves
unchanged. -/

namespace Sys2Proof.Machine

/-- The record is one that 60_exceptions.md R127 allows: the cause's code, its kind of datum, a word unless the fetch itself
faulted. -/
def FaultRecord.wf (r : FaultRecord) : Bool :=
  r.code == causeCode r.cause &&
  match r.cause, r.info, r.word with
  | .illegalInstruction, .word w, some u => w == u
  | .addressOutOfRange, .address a, _ => decide (memSize ≤ a)
  | .stackOverflow, .pointer p, some _ => p == 16
  | .stackUnderflow, .pointer p, some _ => p == 0
  | .keyIndexOutOfRange, .key b, some _ => decide (16 ≤ b.toNat)
  | .arithmeticUnderflow, .operands vx vy, some _ => decide (vy.toNat < vx.toNat)
  | _, _, _ => false

/-- In mode `faulted` the record is well formed and PC still holds the faulting instruction's address (60_exceptions.md
R127, R129). -/
def Mode.ok (pc : Word) : Mode → Bool
  | .faulted r => r.wf && r.pc == pc
  | _ => true

/-- The invariant of 10_state.md R32, with the canonical form of memory and the fault record's form. -/
structure State.Inv (s : State) : Prop where
  memory : s.mem.wf = true
  pointer : s.sp.toNat ≤ 16
  image : s.image.length ≤ maxImage
  mode : s.mode.ok s.pc = true

/-- A safe step: the model gives it a next state. -/
def SafeStep (s : State) : Prop := ∃ t, step s = .next t

/-- The core has no fault latched (60_exceptions.md R125). -/
def State.notFaulted (s : State) : Bool :=
  match s.mode with
  | .faulted _ => false
  | _ => true

/-- Every register outside `rs` is unchanged. -/
def KeepsRegsExcept (rs : List Reg) (s t : State) : Prop := ∀ r : Reg, r ∉ rs → t.reg r = s.reg r

/-- Every byte of memory is unchanged, read one by one. -/
def KeepsMemory (s t : State) : Prop := ∀ a : Nat, t.mem.read a = s.mem.read a

/-- Every byte of memory outside `a`, ..., `a + n - 1` is unchanged, read one by one. -/
def KeepsMemoryOutside (a n : Nat) (s t : State) : Prop :=
  ∀ b : Nat, b < a ∨ a + n ≤ b → t.mem.read b = s.mem.read b

/-- I is unchanged. -/
def KeepsI (s t : State) : Prop := t.i = s.i

/-- Both timers are unchanged. -/
def KeepsTimers (s t : State) : Prop := t.dt = s.dt ∧ t.st = s.st

/-- The stack slots and SP are unchanged. -/
def KeepsStack (s t : State) : Prop := t.stack = s.stack ∧ t.sp = s.sp

/-- The framebuffer is unchanged. -/
def KeepsDisplay (s t : State) : Prop := t.disp = s.disp

/-- The keyboard latches are unchanged. -/
def KeepsKeys (s t : State) : Prop := t.key = s.key

/-- The mode is unchanged. -/
def KeepsMode (s t : State) : Prop := t.mode = s.mode

/-- The remembered image is unchanged. -/
def KeepsImage (s t : State) : Prop := t.image = s.image

/-- The model's counter of draws is unchanged. -/
def KeepsDraws (s t : State) : Prop := t.draws = s.draws

/-- The stack, the mode, the image and the counter of draws are unchanged. -/
def KeepsControl (s t : State) : Prop := KeepsStack s t ∧ KeepsMode s t ∧ KeepsImage s t ∧ KeepsDraws s t

/-- The timers, the framebuffer and the keyboard latches are unchanged. -/
def KeepsDevices (s t : State) : Prop := KeepsTimers s t ∧ KeepsDisplay s t ∧ KeepsKeys s t

/-- Only PC and the registers `rs` may change. -/
def KeepsAllButRegs (rs : List Reg) (s t : State) : Prop :=
  KeepsRegsExcept rs s t ∧ KeepsMemory s t ∧ KeepsI s t ∧ KeepsDevices s t ∧ KeepsControl s t

/-- `s` with a fault latched: every other element as it was (60_exceptions.md R129). -/
def latched (s : State) (cause : FaultKind) (code : Byte) (word : Option Word) (info : FaultInfo) : State :=
  { s with mode := .faulted { cause := cause, code := code, pc := s.pc, word := word, info := info } }

/-- The big-endian word at PC (40_cycle.md R66). -/
def State.wordAtPc (s : State) : Word := bigEndian (s.mem.read s.pc.toNat) (s.mem.read (s.pc.toNat + 1))

/-- The next step fetches and executes `i`: mode `run`, both bytes at PC in memory, and they decode to `i`. -/
structure State.AboutToRun (s : State) (i : Instr) : Prop where
  mode : s.mode = .run
  fetchable : s.pc.toNat + 2 ≤ 4096
  decodes : decode s.wordAtPc = .instr i

/-- Some key is latched. -/
def State.anyKey (s : State) : Bool := s.key.toList.any id

/-- A sprite of `n` rows read from `mem` at `base`, drawn at `(x0, y0)`, has a set bit over pixel `(px, py)` (44_display.md
R109): exact natural coordinates, bit 7 of a row leftmost. -/
def spriteCovers (mem : Memory) (base x0 y0 n px py : Nat) : Bool :=
  decide (x0 ≤ px ∧ px < x0 + 8 ∧ y0 ≤ py ∧ py < y0 + n) && (mem.read (base + (py - y0))).getLsbD (7 - (px - x0))

/-- The general registers an instruction writes when it completes, VF among them where it is the flag (10_state.md R16,
R17). -/
def destinations : Instr → List Reg
  | .ldImm x _ | .addImm x _ | .ldReg x _ | .orReg x _ | .andReg x _ | .xorReg x _ | .rnd x _ | .ldVxDt x => [x]
  | .addReg x _ | .subReg x _ | .shr x _ | .subn x _ | .shl x _ => [x, vf]
  | .drw _ _ _ => [vf]
  | .ldVxMem x => (List.finRange 16).filter fun r => decide (r ≤ x)
  | .cls | .ret | .jp _ | .call _ | .seImm _ _ | .sneImm _ _ | .seReg _ _ | .sneReg _ _ | .ldI _ | .jpV0 _ | .skp _ | .sknp _
  | .ldVxK _ | .ldDtVx _ | .ldStVx _ | .addIVx _ | .ldFVx _ | .ldBVx _ | .ldMemVx _ => []

end Sys2Proof.Machine
end

