-- ==== Sys2Proof/Certificates/Slice0/Obligations.lean ====
section
/-! DEFINITION. The statements for the provers. Each docstring names the rule of spec/ it formalises. In the statements about an
instruction, `exec` runs from the state at the step's start, so `t.pc = s.pc + 2` is the fetch's advance alone
(40_cycle.md R67). -/

open Sys2Proof Sys2Proof.Machine

/-! ### Encoding (30_encoding.md) -/

/-- 30_encoding.md R53 to R56: no bit of an encoding is dropped. Rests on the spec's own decisions D13, D14 (log entry
12). -/
def Obligations.DecodeOfEncodeIsTheInstruction : Prop :=
  ∀ i : Instr, i.wellFormed = true → decode (encode i) = .instr i

/-- 30_encoding.md R54, R56, R57: what the decoder reads is well formed and encodes back to the same word, so two words
never decode to one instruction value (the unused `y` of 8xy6 and 8xyE is carried). Rests on the spec's own decisions D13,
D14 (log entry 12). -/
def Obligations.EncodeOfDecodeIsTheWord : Prop :=
  ∀ (w : Word) (i : Instr), decode w = .instr i → encode i = w ∧ i.wellFormed = true

/-- spec/opcode_table.json: the decoder reads an instruction of kind `k` exactly where the word matches the table's row
for `k`. Rests on the spec's own decisions D13, D14 (log entry 12). -/
def Obligations.DecoderFollowsTheOpcodeTable : Prop :=
  ∀ (w : Word) (k : InstrKind),
    (∃ i : Instr, decode w = .instr i ∧ i.kind = k) ↔ ∃ row ∈ opcodeTable, row.1 = k ∧ w &&& row.2.1 = row.2.2

/-- 30_encoding.md R58, first table: the words that decode to `Invalid(w)`, and `Invalid` carries the whole word. Rests on
the spec's own decisions D13, D14 (log entry 12). -/
def Obligations.InvalidWordsAreTheListedOnes : Prop :=
  ∀ w : Word, decode w = .invalid w ↔
    (w.toNat ≤ 0x0FFF ∧ w ≠ 0x00E0 ∧ w ≠ 0x00EE) ∨
    (w.toNat / 4096 = 5 ∧ w.toNat % 16 ≠ 0) ∨
    (w.toNat / 4096 = 8 ∧ w.toNat % 16 ∈ [8, 9, 0xA, 0xB, 0xC, 0xD, 0xF]) ∨
    (w.toNat / 4096 = 9 ∧ w.toNat % 16 ≠ 0) ∨
    (w.toNat / 4096 = 0xE ∧ w.toNat % 256 ∉ [0x9E, 0xA1]) ∨
    (w.toNat / 4096 = 0xF ∧ w.toNat % 256 ∉ [0x07, 0x0A, 0x15, 0x18, 0x1E, 0x29, 0x33, 0x55, 0x65])

/-- Words written out from the patterns of 30_encoding.md R55, one or more per family. Rests on the spec's own decision
D13 (log entry 12). -/
def Obligations.SampleWordsDecode : Prop :=
  decode 0b0000000011100000 = .instr .cls ∧ decode 0b0000000011101110 = .instr .ret ∧
  decode 0b0001001000110100 = .instr (.jp 0x234) ∧ decode 0b0110000100001010 = .instr (.ldImm 1 0x0A) ∧
  decode 0b1000000100100100 = .instr (.addReg 1 2) ∧ decode 0b1101000000010001 = .instr (.drw 0 1 1) ∧
  decode 0b1110001110011110 = .instr (.skp 3) ∧ decode 0b1111001001100101 = .instr (.ldVxMem 2) ∧
  decode 0b0000000100100011 = .invalid 0x0123

/-! ### Control transfer (41_control.md) -/

/-- 41_control.md R78: with `j + 1` slots in use the top, slot `j`, goes to PC and keeps its value. Rests on the spec's
own decisions D4, D6 (log entry 12). -/
def Obligations.RetPopsTheReturnAddress : Prop :=
  decode 0x00EE = .instr .ret ∧
  ∀ s : State,
    (∀ j : Fin 16, s.sp.toNat = j.val + 1 → ∃ t, exec .ret s = .next t ∧ t.pc = s.stack[j.val] ∧ t.sp.toNat = j.val ∧
      t.stack = s.stack ∧ KeepsRegsExcept [] s t ∧ KeepsMemory s t ∧ KeepsI s t ∧ KeepsDevices s t ∧ KeepsMode s t ∧
      KeepsImage s t ∧ KeepsDraws s t) ∧
    (s.sp = 0 → exec .ret s = .next (latched s .stackUnderflow 4 (some 0x00EE) (.pointer 0)))

/-- 41_control.md R79. -/
def Obligations.JpSetsPc : Prop :=
  ∀ (nnn : Word) (s : State),
    (nnn.toNat < 4096 → decode (BitVec.ofNat 16 (0x1000 + nnn.toNat)) = .instr (.jp nnn)) ∧
    ∃ t, exec (.jp nnn) s = .next t ∧ t.pc = nnn ∧ KeepsAllButRegs [] s t

/-- 41_control.md R80. Rests on the spec's own decisions D3, D6 (log entry 12). -/
def Obligations.CallPushesTheReturnAddress : Prop :=
  ∀ (nnn : Word) (s : State),
    (nnn.toNat < 4096 → decode (BitVec.ofNat 16 (0x2000 + nnn.toNat)) = .instr (.call nnn)) ∧
    (∀ (h : s.sp.toNat < 16), ∃ t, exec (.call nnn) s = .next t ∧ t.pc = nnn ∧ t.sp.toNat = s.sp.toNat + 1 ∧
      t.stack[s.sp.toNat] = s.pc + 2 ∧ (∀ j : Fin 16, j.val ≠ s.sp.toNat → t.stack[j.val] = s.stack[j.val]) ∧
      KeepsRegsExcept [] s t ∧ KeepsMemory s t ∧ KeepsI s t ∧ KeepsDevices s t ∧ KeepsMode s t ∧ KeepsImage s t ∧
      KeepsDraws s t) ∧
    (nnn.toNat < 4096 → s.sp = 16 → exec (.call nnn) s =
      .next (latched s .stackOverflow 3 (some (BitVec.ofNat 16 (0x2000 + nnn.toNat))) (.pointer 16)))

/-- 41_control.md R77, R81, R82. -/
def Obligations.SkipOnImmediate : Prop :=
  ∀ (x : Reg) (kk : Byte) (s : State),
    decode (BitVec.ofNat 16 (0x3000 + x.val * 0x100 + kk.toNat)) = .instr (.seImm x kk) ∧
    decode (BitVec.ofNat 16 (0x4000 + x.val * 0x100 + kk.toNat)) = .instr (.sneImm x kk) ∧
    (∃ t, exec (.seImm x kk) s = .next t ∧ t.pc = (if s.reg x = kk then s.pc + 4 else s.pc + 2) ∧
      KeepsAllButRegs [] s t) ∧
    ∃ t, exec (.sneImm x kk) s = .next t ∧ t.pc = (if s.reg x = kk then s.pc + 2 else s.pc + 4) ∧
      KeepsAllButRegs [] s t

/-- 41_control.md R77, R83, R84; a low nibble other than 0 is invalid. Rests on the spec's own decision D14 (log entry
12). -/
def Obligations.SkipOnRegisters : Prop :=
  ∀ (x y : Reg) (s : State),
    decode (BitVec.ofNat 16 (0x5000 + x.val * 0x100 + y.val * 0x10)) = .instr (.seReg x y) ∧
    decode (BitVec.ofNat 16 (0x9000 + x.val * 0x100 + y.val * 0x10)) = .instr (.sneReg x y) ∧
    (∀ n : Fin 16, n ≠ 0 → ∀ op ∈ [0x5000, 0x9000],
      decode (BitVec.ofNat 16 (op + x.val * 0x100 + y.val * 0x10 + n.val)) =
        .invalid (BitVec.ofNat 16 (op + x.val * 0x100 + y.val * 0x10 + n.val))) ∧
    (∃ t, exec (.seReg x y) s = .next t ∧ t.pc = (if s.reg x = s.reg y then s.pc + 4 else s.pc + 2) ∧
      KeepsAllButRegs [] s t) ∧
    ∃ t, exec (.sneReg x y) s = .next t ∧ t.pc = (if s.reg x = s.reg y then s.pc + 2 else s.pc + 4) ∧
      KeepsAllButRegs [] s t

/-- 41_control.md R85; the sum of a 12-bit address and a byte never wraps. Rests on the spec's own decision D17 (log entry
12). -/
def Obligations.JpV0AddsV0 : Prop :=
  ∀ (nnn : Word) (s : State), nnn.toNat < 4096 →
    decode (BitVec.ofNat 16 (0xB000 + nnn.toNat)) = .instr (.jpV0 nnn) ∧
    ∃ t, exec (.jpV0 nnn) s = .next t ∧ t.pc.toNat = nnn.toNat + (s.reg 0).toNat ∧ KeepsAllButRegs [] s t

/-! ### Register loads and ALU (42_alu.md) -/

/-- 42_alu.md R88. -/
def Obligations.LdImmLoadsTheByte : Prop :=
  ∀ (x : Reg) (kk : Byte) (s : State),
    decode (BitVec.ofNat 16 (0x6000 + x.val * 0x100 + kk.toNat)) = .instr (.ldImm x kk) ∧
    ∃ t, exec (.ldImm x kk) s = .next t ∧ t.reg x = kk ∧ t.pc = s.pc + 2 ∧ KeepsAllButRegs [x] s t

/-- 42_alu.md R89. Rests on the spec's own decision D12 (log entry 12). -/
def Obligations.AddImmWrapsWithoutFlag : Prop :=
  ∀ (x : Reg) (kk : Byte) (s : State),
    decode (BitVec.ofNat 16 (0x7000 + x.val * 0x100 + kk.toNat)) = .instr (.addImm x kk) ∧
    ∃ t, exec (.addImm x kk) s = .next t ∧ (t.reg x).toNat = ((s.reg x).toNat + kk.toNat) % 256 ∧ t.pc = s.pc + 2 ∧
      KeepsAllButRegs [x] s t

/-- 42_alu.md R90 to R93: VF is not written unless `x = F`. Rests on the spec's own decision D12 (log entry 12). -/
def Obligations.CopyAndLogicKeepVF : Prop :=
  ∀ (x y : Reg) (s : State),
    (decode (BitVec.ofNat 16 (0x8000 + x.val * 0x100 + y.val * 0x10)) = .instr (.ldReg x y) ∧
      ∃ t, exec (.ldReg x y) s = .next t ∧ t.reg x = s.reg y ∧ t.pc = s.pc + 2 ∧ KeepsAllButRegs [x] s t) ∧
    (decode (BitVec.ofNat 16 (0x8001 + x.val * 0x100 + y.val * 0x10)) = .instr (.orReg x y) ∧
      ∃ t, exec (.orReg x y) s = .next t ∧ t.reg x = s.reg x ||| s.reg y ∧ t.pc = s.pc + 2 ∧ KeepsAllButRegs [x] s t) ∧
    (decode (BitVec.ofNat 16 (0x8002 + x.val * 0x100 + y.val * 0x10)) = .instr (.andReg x y) ∧
      ∃ t, exec (.andReg x y) s = .next t ∧ t.reg x = s.reg x &&& s.reg y ∧ t.pc = s.pc + 2 ∧ KeepsAllButRegs [x] s t) ∧
    decode (BitVec.ofNat 16 (0x8003 + x.val * 0x100 + y.val * 0x10)) = .instr (.xorReg x y) ∧
      ∃ t, exec (.xorReg x y) s = .next t ∧ t.reg x = s.reg x ^^^ s.reg y ∧ t.pc = s.pc + 2 ∧ KeepsAllButRegs [x] s t

/-- 42_alu.md R94 (and R87: with `x = F` the flag stays). The rule's clause for `x = F` repeats the spec's own decision
D11 (log entry 12). -/
def Obligations.AddRegCarriesToVF : Prop :=
  ∀ (x y : Reg) (s : State),
    decode (BitVec.ofNat 16 (0x8004 + x.val * 0x100 + y.val * 0x10)) = .instr (.addReg x y) ∧
    ∃ t, exec (.addReg x y) s = .next t ∧
      (t.reg 15).toNat = (if (s.reg x).toNat + (s.reg y).toNat > 255 then 1 else 0) ∧
      (x ≠ 15 → (t.reg x).toNat = ((s.reg x).toNat + (s.reg y).toNat) % 256) ∧
      t.pc = s.pc + 2 ∧ KeepsAllButRegs [x, 15] s t

/-- 42_alu.md R95 (and R87): equal operands give VF = 0. The rule repeats the spec's own decisions D9 (equal operands, as
the source says) and D11 (`x = F`; log entry 12). -/
def Obligations.SubRegFlagsStrictlyGreater : Prop :=
  ∀ (x y : Reg) (s : State),
    decode (BitVec.ofNat 16 (0x8005 + x.val * 0x100 + y.val * 0x10)) = .instr (.subReg x y) ∧
    ∃ t, exec (.subReg x y) s = .next t ∧
      (t.reg 15).toNat = (if (s.reg x).toNat > (s.reg y).toNat then 1 else 0) ∧
      (x ≠ 15 → ((t.reg x).toNat : Int) = ((s.reg x).toNat - (s.reg y).toNat : Int) % 256) ∧
      t.pc = s.pc + 2 ∧ KeepsAllButRegs [x, 15] s t

/-- 42_alu.md R96: `Vy` is not read, for every `y`. The rule's clause for `x = F` repeats the spec's own decision D11 (log
entry 12). -/
def Obligations.ShrShiftsBitZeroToVF : Prop :=
  ∀ (x y : Reg) (s : State),
    decode (BitVec.ofNat 16 (0x8006 + x.val * 0x100 + y.val * 0x10)) = .instr (.shr x y) ∧
    ∃ t, exec (.shr x y) s = .next t ∧ (t.reg 15).toNat = (s.reg x).toNat % 2 ∧
      (x ≠ 15 → (t.reg x).toNat = (s.reg x).toNat / 2) ∧ t.pc = s.pc + 2 ∧ KeepsAllButRegs [x, 15] s t

/-- 42_alu.md R98: `Vy` is not read, for every `y`. The rule's clause for `x = F` repeats the spec's own decision D11 (log
entry 12). -/
def Obligations.ShlShiftsBitSevenToVF : Prop :=
  ∀ (x y : Reg) (s : State),
    decode (BitVec.ofNat 16 (0x800E + x.val * 0x100 + y.val * 0x10)) = .instr (.shl x y) ∧
    ∃ t, exec (.shl x y) s = .next t ∧ (t.reg 15).toNat = (s.reg x).toNat / 128 ∧
      (x ≠ 15 → (t.reg x).toNat = (s.reg x).toNat * 2 % 256) ∧ t.pc = s.pc + 2 ∧ KeepsAllButRegs [x, 15] s t

/-- 42_alu.md R97 for both values of the parameter: `execWith p` is the instruction under `RSUB_UNDERFLOW_FAULTS =
p.rsubFaults`, and `exec` runs it at the default. Rests on the spec's own decision D8 (log entry 12). -/
def Obligations.SubnUnderBothParameterValues : Prop :=
  ∀ (p : Parameters) (x y : Reg) (s : State),
    decode (BitVec.ofNat 16 (0x8007 + x.val * 0x100 + y.val * 0x10)) = .instr (.subn x y) ∧
    exec (.subn x y) s = execWith Parameters.default (.subn x y) s ∧
    (p.rsubFaults = false ∨ (s.reg x).toNat ≤ (s.reg y).toNat →
      ∃ t, execWith p (.subn x y) s = .next t ∧
        (t.reg 15).toNat = (if (s.reg y).toNat > (s.reg x).toNat then 1 else 0) ∧
        (x ≠ 15 → ((t.reg x).toNat : Int) = ((s.reg y).toNat - (s.reg x).toNat : Int) % 256) ∧
        t.pc = s.pc + 2 ∧ KeepsAllButRegs [x, 15] s t) ∧
    (p.rsubFaults = true → (s.reg y).toNat < (s.reg x).toNat →
      execWith p (.subn x y) s =
        .next (latched s .arithmeticUnderflow 6 (some (BitVec.ofNat 16 (0x8007 + x.val * 0x100 + y.val * 0x10)))
          (.operands (s.reg x) (s.reg y))))

/-- 42_alu.md R97 at the default of the parameter (00_scope.md R6): 8xy7 always completes, wrapping. Rests on the spec's
own decision D8 (log entry 12). -/
def Obligations.SubnWrapsByDefault : Prop :=
  ∀ (x y : Reg) (s : State), ∃ t, exec (.subn x y) s = .next t ∧
    (t.reg 15).toNat = (if (s.reg y).toNat > (s.reg x).toNat then 1 else 0) ∧
    (x ≠ 15 → ((t.reg x).toNat : Int) = ((s.reg y).toNat - (s.reg x).toNat : Int) % 256) ∧
    t.pc = s.pc + 2 ∧ KeepsAllButRegs [x, 15] s t

/-- 42_alu.md R99, 00_scope.md R12: the draw is a free byte, so only "some byte, masked" can be said of the result. Rests
on the spec's own decision D23 (log entry 12). -/
def Obligations.RndMasksADraw : Prop :=
  ∀ (x : Reg) (kk : Byte) (s : State),
    decode (BitVec.ofNat 16 (0xC000 + x.val * 0x100 + kk.toNat)) = .instr (.rnd x kk) ∧
    ∃ t, exec (.rnd x kk) s = .next t ∧ (∃ r : Byte, t.reg x = r &&& kk) ∧ t.pc = s.pc + 2 ∧
      KeepsRegsExcept [x] s t ∧ KeepsMemory s t ∧ KeepsI s t ∧ KeepsDevices s t ∧ KeepsStack s t ∧ KeepsMode s t ∧
      KeepsImage s t

/-- The model's own form of a draw (log entry 5, DESIGN CHOICE): the free value at the counter, which then goes up, so no
two draws of a run use one value; no other instruction touches the counter. Rests on the spec's own decision D23 (log
entry 12). -/
def Obligations.EachDrawIsAFreshFreeValue : Prop :=
  (∀ (x : Reg) (kk : Byte) (s : State), ∃ t, exec (.rnd x kk) s = .next t ∧
    t.reg x = Config.freeByte s.draws &&& kk ∧ t.draws = s.draws + 1) ∧
  ∀ (i : Instr) (s t : State), (∀ x kk, i ≠ .rnd x kk) → exec i s = .next t → KeepsDraws s t

/-! ### Address register and memory operations (43_memory_ops.md) -/

/-- 43_memory_ops.md R101. -/
def Obligations.LdILoadsTheAddress : Prop :=
  ∀ (nnn : Word) (s : State),
    (nnn.toNat < 4096 → decode (BitVec.ofNat 16 (0xA000 + nnn.toNat)) = .instr (.ldI nnn)) ∧
    ∃ t, exec (.ldI nnn) s = .next t ∧ t.i = nnn ∧ t.pc = s.pc + 2 ∧ KeepsRegsExcept [] s t ∧ KeepsMemory s t ∧
      KeepsDevices s t ∧ KeepsControl s t

/-- 43_memory_ops.md R102: 16-bit wrap, no flag, no memory access, so no fault past 0x0FFF. Rests on the spec's own
decision D12 (log entry 12). -/
def Obligations.AddIWrapsWithoutFlag : Prop :=
  ∀ (x : Reg) (s : State),
    decode (BitVec.ofNat 16 (0xF01E + x.val * 0x100)) = .instr (.addIVx x) ∧
    ∃ t, exec (.addIVx x) s = .next t ∧ t.i.toNat = (s.i.toNat + (s.reg x).toNat) % 65536 ∧ t.pc = s.pc + 2 ∧
      KeepsRegsExcept [] s t ∧ KeepsMemory s t ∧ KeepsDevices s t ∧ KeepsControl s t

/-- 43_memory_ops.md R103: `5 * Vx` for every value of Vx, no mask. Rests on the spec's own decision D16 (log entry 12).
-/
def Obligations.LdFPointsAtTheGlyph : Prop :=
  ∀ (x : Reg) (s : State),
    decode (BitVec.ofNat 16 (0xF029 + x.val * 0x100)) = .instr (.ldFVx x) ∧
    ∃ t, exec (.ldFVx x) s = .next t ∧ t.i.toNat = 5 * (s.reg x).toNat ∧ t.pc = s.pc + 2 ∧ KeepsRegsExcept [] s t ∧
      KeepsMemory s t ∧ KeepsDevices s t ∧ KeepsControl s t

/-- 43_memory_ops.md R104: the three digits, or the fault with nothing written. Rests on the spec's own decisions D2, D6
(log entry 12). -/
def Obligations.LdBStoresTheDecimalDigits : Prop :=
  ∀ (x : Reg) (s : State),
    decode (BitVec.ofNat 16 (0xF033 + x.val * 0x100)) = .instr (.ldBVx x) ∧
    (s.blockBase + 2 < 4096 → ∃ t, exec (.ldBVx x) s = .next t ∧
      (t.mem.read s.blockBase).toNat = (s.reg x).toNat / 100 ∧
      (t.mem.read (s.blockBase + 1)).toNat = (s.reg x).toNat / 10 % 10 ∧
      (t.mem.read (s.blockBase + 2)).toNat = (s.reg x).toNat % 10 ∧
      KeepsMemoryOutside s.blockBase 3 s t ∧ t.pc = s.pc + 2 ∧ KeepsRegsExcept [] s t ∧ KeepsI s t ∧ KeepsDevices s t ∧
      KeepsControl s t) ∧
    (s.blockBase + 2 ≥ 4096 → exec (.ldBVx x) s = .next (latched s .addressOutOfRange 2
      (some (BitVec.ofNat 16 (0xF033 + x.val * 0x100))) (.address (max s.i.toNat 4096))))

/-- 43_memory_ops.md R105: V0..Vx to I..I+x, I kept, or the fault with nothing written. Rests on the spec's own decisions
D2, D6, D15 (log entry 12). -/
def Obligations.LdMemStoresTheRegisterBlock : Prop :=
  ∀ (x : Reg) (s : State),
    decode (BitVec.ofNat 16 (0xF055 + x.val * 0x100)) = .instr (.ldMemVx x) ∧
    (s.blockBase + x.val < 4096 → ∃ t, exec (.ldMemVx x) s = .next t ∧
      (∀ r : Reg, r ≤ x → t.mem.read (s.blockBase + r.val) = s.reg r) ∧
      KeepsMemoryOutside s.blockBase (x.val + 1) s t ∧ t.pc = s.pc + 2 ∧ KeepsRegsExcept [] s t ∧ KeepsI s t ∧
      KeepsDevices s t ∧ KeepsControl s t) ∧
    (s.blockBase + x.val ≥ 4096 → exec (.ldMemVx x) s = .next (latched s .addressOutOfRange 2
      (some (BitVec.ofNat 16 (0xF055 + x.val * 0x100))) (.address (max s.i.toNat 4096))))

/-- 43_memory_ops.md R106: V0..Vx from I..I+x, I kept, or the fault with no register written. Rests on the spec's own
decisions D2, D6, D15 (log entry 12). -/
def Obligations.LdVxMemLoadsTheRegisterBlock : Prop :=
  ∀ (x : Reg) (s : State),
    decode (BitVec.ofNat 16 (0xF065 + x.val * 0x100)) = .instr (.ldVxMem x) ∧
    (s.blockBase + x.val < 4096 → ∃ t, exec (.ldVxMem x) s = .next t ∧
      (∀ r : Reg, t.reg r = if r ≤ x then s.mem.read (s.blockBase + r.val) else s.reg r) ∧
      KeepsMemory s t ∧ t.pc = s.pc + 2 ∧ KeepsI s t ∧ KeepsDevices s t ∧ KeepsControl s t) ∧
    (s.blockBase + x.val ≥ 4096 → exec (.ldVxMem x) s = .next (latched s .addressOutOfRange 2
      (some (BitVec.ofNat 16 (0xF065 + x.val * 0x100))) (.address (max s.i.toNat 4096))))

/-! ### Display (44_display.md) -/

/-- 44_display.md R108, R113. -/
def Obligations.ClsClearsEveryPixel : Prop :=
  decode 0x00E0 = .instr .cls ∧
  ∀ s : State, ∃ t, exec .cls s = .next t ∧ (∀ px py : Nat, pixel t.disp px py = false) ∧ t.pc = s.pc + 2 ∧
    KeepsRegsExcept [] s t ∧ KeepsMemory s t ∧ KeepsI s t ∧ KeepsTimers s t ∧ KeepsKeys s t ∧ KeepsControl s t

/-- 44_display.md R109, R110, R111, R114: each pixel under a set sprite bit is toggled and no other, whatever the loop
order; VF is 1 exactly if a toggled pixel was on; or the fault with nothing changed. `s.reg x` and `s.reg y` are read
before VF is written. Rests on the spec's own decisions D2, D6, D10, D19, D20, D37 (log entry 12). -/
def Obligations.DrwXorsTheSpriteAndReportsCollision : Prop :=
  ∀ (x y : Reg) (n : Nat) (s : State),
    (n < 16 → decode (BitVec.ofNat 16 (0xD000 + x.val * 0x100 + y.val * 0x10 + n)) = .instr (.drw x y n)) ∧
    (n = 0 ∨ s.blockBase + n - 1 < 4096 → ∃ t, exec (.drw x y n) s = .next t ∧
      (∀ px py : Nat, px < 64 → py < 32 → pixel t.disp px py =
        (pixel s.disp px py ^^ spriteCovers s.mem s.blockBase (s.reg x).toNat (s.reg y).toNat n px py)) ∧
      ((∃ px py : Nat, px < 64 ∧ py < 32 ∧ pixel s.disp px py = true ∧
          spriteCovers s.mem s.blockBase (s.reg x).toNat (s.reg y).toNat n px py = true) → t.reg 15 = 1) ∧
      ((¬∃ px py : Nat, px < 64 ∧ py < 32 ∧ pixel s.disp px py = true ∧
          spriteCovers s.mem s.blockBase (s.reg x).toNat (s.reg y).toNat n px py = true) → t.reg 15 = 0) ∧
      KeepsRegsExcept [15] s t ∧ t.pc = s.pc + 2 ∧ KeepsMemory s t ∧ KeepsI s t ∧ KeepsTimers s t ∧ KeepsKeys s t ∧
      KeepsControl s t) ∧
    (0 < n → n < 16 → s.blockBase + n - 1 ≥ 4096 → exec (.drw x y n) s = .next (latched s .addressOutOfRange 2
      (some (BitVec.ofNat 16 (0xD000 + x.val * 0x100 + y.val * 0x10 + n))) (.address (max s.i.toNat 4096))))

/-! ### Keyboard and timers (45_keys_timers.md) -/

/-- 45_keys_timers.md R116: `ReadClear` returns the latch and clears it, and only it; a second read gives false. -/
def Obligations.ReadClearConsumesTheKey : Prop :=
  ∀ (s : State) (k : Fin 16),
    (readClear s k).1 = s.key[k.val] ∧
    (∀ j : Fin 16, (readClear s k).2.key[j.val] = if j = k then false else s.key[j.val]) ∧
    (readClear (readClear s k).2 k).1 = false ∧ (readClear s k).2.pc = s.pc ∧
    KeepsRegsExcept [] s (readClear s k).2 ∧ KeepsMemory s (readClear s k).2 ∧ KeepsI s (readClear s k).2 ∧
    KeepsTimers s (readClear s k).2 ∧ KeepsDisplay s (readClear s k).2 ∧ KeepsControl s (readClear s k).2

/-- 45_keys_timers.md R117, R118: both key skips read and clear the key Vx names; a Vx above 15 faults with no key read.
Rests on the spec's own decisions D6, D18 (log entry 12). -/
def Obligations.KeySkipsConsumeTheKey : Prop :=
  ∀ (x : Reg) (s : State),
    decode (BitVec.ofNat 16 (0xE09E + x.val * 0x100)) = .instr (.skp x) ∧
    decode (BitVec.ofNat 16 (0xE0A1 + x.val * 0x100)) = .instr (.sknp x) ∧
    (∀ (h : (s.reg x).toNat < 16),
      (∃ t, exec (.skp x) s = .next t ∧ t.pc = (if s.key[(s.reg x).toNat] then s.pc + 4 else s.pc + 2) ∧
        (∀ j : Fin 16, t.key[j.val] = if j.val = (s.reg x).toNat then false else s.key[j.val]) ∧
        KeepsRegsExcept [] s t ∧ KeepsMemory s t ∧ KeepsI s t ∧ KeepsTimers s t ∧ KeepsDisplay s t ∧ KeepsControl s t) ∧
      ∃ t, exec (.sknp x) s = .next t ∧ t.pc = (if s.key[(s.reg x).toNat] then s.pc + 2 else s.pc + 4) ∧
        (∀ j : Fin 16, t.key[j.val] = if j.val = (s.reg x).toNat then false else s.key[j.val]) ∧
        KeepsRegsExcept [] s t ∧ KeepsMemory s t ∧ KeepsI s t ∧ KeepsTimers s t ∧ KeepsDisplay s t ∧ KeepsControl s t) ∧
    ((s.reg x).toNat > 15 →
      exec (.skp x) s = .next (latched s .keyIndexOutOfRange 5 (some (BitVec.ofNat 16 (0xE09E + x.val * 0x100)))
        (.key (s.reg x))) ∧
      exec (.sknp x) s = .next (latched s .keyIndexOutOfRange 5 (some (BitVec.ofNat 16 (0xE0A1 + x.val * 0x100)))
        (.key (s.reg x))))

/-- 45_keys_timers.md R119: Fx0A enters the wait and does not poll; its step returns `Ok(0)`. Rests on the spec's own
decision D33 (log entry 12). -/
def Obligations.LdKEntersTheWait : Prop :=
  ∀ (x : Reg) (s : State),
    decode (BitVec.ofNat 16 (0xF00A + x.val * 0x100)) = .instr (.ldVxK x) ∧
    (∃ t, exec (.ldVxK x) s = .next t ∧ t.mode = .waitKey x ∧ t.pc = s.pc + 2 ∧ KeepsRegsExcept [] s t ∧ KeepsMemory s t ∧
      KeepsI s t ∧ KeepsDevices s t ∧ KeepsStack s t ∧ KeepsImage s t ∧ KeepsDraws s t) ∧
    (s.AboutToRun (.ldVxK x) → instructionStep s = .next ({ s with mode := .waitKey x, pc := s.pc + 2 }, .ok 0))

/-- 45_keys_timers.md R122, R123, R124. -/
def Obligations.TimerInstructionsMoveTheTimers : Prop :=
  ∀ (x : Reg) (s : State),
    (decode (BitVec.ofNat 16 (0xF007 + x.val * 0x100)) = .instr (.ldVxDt x) ∧
      ∃ t, exec (.ldVxDt x) s = .next t ∧ t.reg x = s.dt ∧ t.pc = s.pc + 2 ∧ KeepsAllButRegs [x] s t) ∧
    (decode (BitVec.ofNat 16 (0xF015 + x.val * 0x100)) = .instr (.ldDtVx x) ∧
      ∃ t, exec (.ldDtVx x) s = .next t ∧ t.dt = s.reg x ∧ t.st = s.st ∧ t.pc = s.pc + 2 ∧ KeepsRegsExcept [] s t ∧
        KeepsMemory s t ∧ KeepsI s t ∧ KeepsDisplay s t ∧ KeepsKeys s t ∧ KeepsControl s t) ∧
    decode (BitVec.ofNat 16 (0xF018 + x.val * 0x100)) = .instr (.ldStVx x) ∧
      ∃ t, exec (.ldStVx x) s = .next t ∧ t.st = s.reg x ∧ soundOn t = decide (s.reg x ≠ 0) ∧ t.dt = s.dt ∧
        t.pc = s.pc + 2 ∧ KeepsRegsExcept [] s t ∧ KeepsMemory s t ∧ KeepsI s t ∧ KeepsDisplay s t ∧ KeepsKeys s t ∧
        KeepsControl s t

/-! ### The core cycle (40_cycle.md) and faults (60_exceptions.md) -/

/-- 40_cycle.md R64, R65: a step in mode `run` is `exec` of the decoded instruction on the state at the step's start (the
fetch's advance of PC is inside `exec`), and its report is the instruction's. Under any parameters it is `execWith`, which
is `exec` at the defaults and for every instruction but 8xy7. Rests on the spec's own decisions D5, D8 (log entry 12). -/
def Obligations.StepRunsTheDecodedInstruction : Prop :=
  ∀ (s : State) (i : Instr), s.AboutToRun i →
    step s = exec i s ∧ instructionStep s = reportExec i (exec i s) ∧
    ∀ p : Parameters, stepWith p s = execWith p i s ∧ instructionStep s p = reportExec i (execWith p i s) ∧
      ((p = Parameters.default ∨ ∀ x y, i ≠ .subn x y) → execWith p i s = exec i s)

/-- 40_cycle.md R66: both bytes at PC are read as a big-endian pair, or the step faults with the first address out of
range and no word. Rests on the spec's own decision D2 (log entry 12). -/
def Obligations.FetchReadsABigEndianPairOrFaults : Prop :=
  ∀ s : State, s.mode = .run →
    (s.pc.toNat + 2 ≤ 4096 →
      fetchWord s.mem s.pc.toNat =
        .ok (BitVec.ofNat 16 ((s.mem.read s.pc.toNat).toNat * 256 + (s.mem.read (s.pc.toNat + 1)).toNat))) ∧
    (s.pc.toNat ≥ 4096 → step s = .next (latched s .addressOutOfRange 2 none (.address s.pc.toNat))) ∧
    (s.pc = 0xFFF → step s = .next (latched s .addressOutOfRange 2 none (.address 0x1000)))

/-- 60_exceptions.md R128, R130: an invalid word, once fetched, raises IllegalInstruction, in the state and in the report.
Rests on the spec's own decisions D5, D6, D31, D32 (log entry 12). -/
def Obligations.InvalidWordRaisesIllegalInstruction : Prop :=
  ∀ s : State, s.mode = .run → s.pc.toNat + 2 ≤ 4096 → decode s.wordAtPc = .invalid s.wordAtPc →
    instructionStep s = .next (latched s .illegalInstruction 1 (some s.wordAtPc) (.word s.wordAtPc),
      .fault { cause := .illegalInstruction, code := 1, pc := s.pc, word := some s.wordAtPc, info := .word s.wordAtPc })

/-- 40_cycle.md R69: the lowest latched key is consumed and its index written; with none latched nothing changes. -/
def Obligations.PollConsumesTheLowestKey : Prop :=
  ∀ (s : State) (x : Reg), s.mode = .waitKey x →
    (∀ k : Fin 16, s.key[k.val] = true → (∀ j : Fin 16, j < k → s.key[j.val] = false) →
      ∃ t, instructionStep s = .next (t, .ok Config.waitPollCost) ∧ (t.reg x).toNat = k.val ∧ t.mode = .run ∧ t.pc = s.pc ∧
        (∀ j : Fin 16, t.key[j.val] = if j = k then false else s.key[j.val]) ∧ KeepsRegsExcept [x] s t ∧
        KeepsMemory s t ∧ KeepsI s t ∧ KeepsTimers s t ∧ KeepsDisplay s t ∧ KeepsStack s t ∧ KeepsImage s t ∧
        KeepsDraws s t) ∧
    ((∀ j : Fin 16, s.key[j.val] = false) → instructionStep s = .next (s, .ok Config.waitPollCost))

/-- 40_cycle.md R70. Rests on the spec's own decision D7 (log entry 12). -/
def Obligations.FaultedStepChangesNothing : Prop :=
  ∀ (s : State) (r : FaultRecord), s.mode = .faulted r → instructionStep s = .next (s, .fault r) ∧ step s = .next s

/-- 40_cycle.md R71, R63: what a completed step costs. Operands, memory and skips do not enter; Fx0A costs 0; a step that
ends faulted reports the record and no cost. Rests on the spec's own decision D22 (log entry 12). -/
def Obligations.CostIsAConstantOfTheKind : Prop :=
  (∀ i j : Instr, i.kind = j.kind → cost i = cost j) ∧ (∀ x : Reg, cost (.ldVxK x) = 0) ∧
  (∀ i : Instr, (∀ x, i ≠ .ldVxK x) → cost i = Config.cost i.kind) ∧
  ∀ (s t : State) (i : Instr) (r : StepResult), s.AboutToRun i → instructionStep s = .next (t, r) →
    (t.notFaulted = true → r = .ok (cost i)) ∧ ∀ rec, t.mode = .faulted rec → r = .fault rec

/-- 40_cycle.md R75: the self-loop leaves every field unchanged. Rests on the spec's own decision D41 (log entry 12). -/
def Obligations.SelfLoopIsAFixedPoint : Prop :=
  ∀ s : State, s.mode = .run → s.pc.toNat ≤ 0xFFE → s.wordAtPc = 0x1000 ||| s.pc →
    instructionStep s = .next (s, .ok (Config.cost .jp))

/-- 40_cycle.md R64, the transitions of the mode. Rests on the spec's own decision D7 (log entry 12). -/
def Obligations.ModeTransitionsOfAStep : Prop :=
  ∀ s t : State, step s = .next t →
    (s.mode = .run → t.mode = .run ∨ (∃ x, s.AboutToRun (.ldVxK x) ∧ t.mode = .waitKey x) ∨ ∃ rec, t.mode = .faulted rec) ∧
    (∀ x, s.AboutToRun (.ldVxK x) → t.mode = .waitKey x) ∧
    (∀ x, s.mode = .waitKey x → t.mode = if s.anyKey then .run else .waitKey x) ∧
    ∀ rec, s.mode = .faulted rec → t.mode = .faulted rec

/-- 60_exceptions.md R129 (and 00_scope.md R11), under any parameters (`step` is `stepWith` at the defaults): a step that
raises a fault changes the mode and nothing else; PC is the instruction's address, and the record's word is the fetched
word, `none` only if the fetch faulted. Rests on the spec's own decisions D6, D32 (log entry 12). -/
def Obligations.FaultsArePrecise : Prop :=
  ∀ (p : Parameters) (s t : State) (rec : FaultRecord), s.mode = .run → stepWith p s = .next t → t.mode = .faulted rec →
    t = { s with mode := .faulted rec } ∧ rec.pc = s.pc ∧
    rec.word = (if s.pc.toNat + 2 ≤ 4096 then some s.wordAtPc else none)

/-- 60_exceptions.md R127, under any parameters (`step` is `stepWith` at the defaults): the closed list of causes, each
with its code, what raises it and its info; no other condition raises a fault. Rests on the spec's own decisions D2, D3,
D4, D8, D18, D31, D35 (log entry 12). -/
def Obligations.FaultCausesAreTheListedOnes : Prop :=
  ∀ (p : Parameters) (s t : State) (rec : FaultRecord), s.mode = .run → stepWith p s = .next t → t.mode = .faulted rec →
    (rec.cause = .illegalInstruction ∧ rec.code = 1 ∧ s.pc.toNat + 2 ≤ 4096 ∧ decode s.wordAtPc = .invalid s.wordAtPc ∧
      rec.info = .word s.wordAtPc) ∨
    (rec.cause = .addressOutOfRange ∧ rec.code = 2 ∧
      ((s.pc.toNat + 2 > 4096 ∧ rec.info = .address (max s.pc.toNat 4096)) ∨
        ((∃ x y n, s.AboutToRun (.drw x y n) ∧ 0 < n ∧ s.i.toNat + n > 4096) ∨
          (∃ x, s.AboutToRun (.ldBVx x) ∧ s.i.toNat + 3 > 4096) ∨
          (∃ x : Reg, s.AboutToRun (.ldMemVx x) ∧ s.i.toNat + x.val + 1 > 4096) ∨
          (∃ x : Reg, s.AboutToRun (.ldVxMem x) ∧ s.i.toNat + x.val + 1 > 4096)) ∧
        rec.info = .address (max s.i.toNat 4096))) ∨
    (rec.cause = .stackOverflow ∧ rec.code = 3 ∧ (∃ nnn, s.AboutToRun (.call nnn)) ∧ s.sp = 16 ∧ rec.info = .pointer 16) ∨
    (rec.cause = .stackUnderflow ∧ rec.code = 4 ∧ s.AboutToRun .ret ∧ s.sp = 0 ∧ rec.info = .pointer 0) ∨
    (rec.cause = .keyIndexOutOfRange ∧ rec.code = 5 ∧
      ∃ x, (s.AboutToRun (.skp x) ∨ s.AboutToRun (.sknp x)) ∧ (s.reg x).toNat > 15 ∧ rec.info = .key (s.reg x)) ∨
    (rec.cause = .arithmeticUnderflow ∧ rec.code = 6 ∧ p.rsubFaults = true ∧
      ∃ x y, s.AboutToRun (.subn x y) ∧ (s.reg y).toNat < (s.reg x).toNat ∧ rec.info = .operands (s.reg x) (s.reg y))

/-- The model's own stop (log entry 8, DESIGN CHOICE): CALL and RET at an SP above 16, which 10_state.md R24 says is not a legal
value. -/
def Obligations.IllegalStackPointerStopsCallAndRet : Prop :=
  ∀ s : State, s.sp.toNat > 16 →
    (∀ nnn, exec (.call nnn) s = .fault (.stackPointerIllegal s.sp)) ∧ exec .ret s = .fault (.stackPointerIllegal s.sp)

/-! ### What instructions leave unchanged, over the whole table -/

/-- 10_state.md R16, R17: an instruction writes no general register but its destinations, VF among them only for the flag
writers, Dxyn, and a destination field that names it. Rests on the spec's own decisions D11, D12 (log entry 12). -/
def Obligations.OnlyDestinationRegistersChange : Prop :=
  ∀ (i : Instr) (s t : State), exec i s = .next t → KeepsRegsExcept (destinations i) s t

/-- 20_memory.md R34: only Fx33 and Fx55 write memory, and only at I, I+1, I+2 and at I..I+x. -/
def Obligations.OnlyStoresChangeMemory : Prop :=
  ∀ (i : Instr) (s t : State), exec i s = .next t →
    (∀ x, i = .ldBVx x → KeepsMemoryOutside s.blockBase 3 s t) ∧
    (∀ x : Reg, i = .ldMemVx x → KeepsMemoryOutside s.blockBase (x.val + 1) s t) ∧
    ((∀ x, i ≠ .ldBVx x) → (∀ x, i ≠ .ldMemVx x) → KeepsMemory s t)

/-- 10_state.md R18, R21 to R26: which instructions can change I, DT, ST, the stack, the framebuffer and the latches.
Rests on the spec's own decision D15 (log entry 12). -/
def Obligations.OnlyTheNamedInstructionsChangeEachPart : Prop :=
  ∀ (i : Instr) (s t : State), exec i s = .next t →
    (t.i ≠ s.i → i.kind ∈ [InstrKind.ldI, .addIVx, .ldFVx]) ∧ (t.dt ≠ s.dt → i.kind = .ldDtVx) ∧
    (t.st ≠ s.st → i.kind = .ldStVx) ∧ (t.stack ≠ s.stack → i.kind = .call) ∧
    (t.sp ≠ s.sp → i.kind ∈ [InstrKind.call, .ret]) ∧ (t.disp ≠ s.disp → i.kind ∈ [InstrKind.cls, .drw]) ∧
    (t.key ≠ s.key → i.kind ∈ [InstrKind.skp, .sknp]) ∧ t.image = s.image

/-- 10_state.md R22, R28: no instruction reads ST or the image. Two states that differ only there go to the same kind of
outcome and to states that differ only there, Fx18's write of ST apart. The two states have the same counter of draws, so
for Cxkk the claim is 'for the same draw': that equal counters draw equal bytes is the model's own form of a draw (log
entry 5, DESIGN CHOICE, unsafe for a comparison of two runs) and no rule of the spec (00_scope.md R12 relates no two
draws). -/
def Obligations.SoundTimerAndImageAreNeverRead : Prop :=
  ∀ (i : Instr) (s t : State) (b : Byte) (im : List Byte), exec i s = .next t →
    exec i { s with st := b, image := im } =
      .next { t with st := (if i.kind = .ldStVx then t.st else b), image := im }

/-! ### Memory and the stack -/

/-- 20_memory.md R42, R45, R47: a read gives the last write to that byte, and a write changes that byte only. -/
def Obligations.MemoryReadsTheLastWrite : Prop :=
  ∀ (m : Memory) (a b : Nat) (v : Byte), (m.write a v).read b = if b = a then v else m.read b

/-- The memory's canonical form (log entry 3): memories that read alike at every address are one value. -/
def Obligations.CanonicalMemoriesThatReadAlikeAreEqual : Prop :=
  ∀ m n : Memory, m.wf = true → n.wf = true → (∀ a, m.read a = n.read a) → m = n

/-- 10_state.md R24: Push then Pop gives the address back and leaves the other slots and the pointer as they were. Rests
on the spec's own decisions D3, D4 (log entry 12). -/
def Obligations.PopUndoesPush : Prop :=
  ∀ (s : State) (a : Word), s.sp.toNat < 16 →
    ∃ t u, push s a = .ok t ∧ t.sp.toNat = s.sp.toNat + 1 ∧ pop t = .ok (a, u) ∧ u.sp = s.sp ∧ u.stack = t.stack ∧
      ∀ j : Fin 16, j.val ≠ s.sp.toNat → t.stack[j.val] = s.stack[j.val]

/-! ### Invariants -/

/-- 10_state.md R31, R32, 70_reset_and_hazards.md R143: the reset state meets the invariant, and so does power-on under
any parameters, which at the defaults is the reset state. Rests on the spec's own decision D29 (log entry 12). -/
def Obligations.ResetMeetsTheInvariant : Prop :=
  State.reset.Inv ∧ powerOn Parameters.default = State.reset ∧ ∀ p : Parameters, (powerOn p).Inv

/-- 10_state.md R32, 60_exceptions.md R126, R127, R129: every step keeps the invariant: memory canonical and in range, SP
at most 16, the image at most 3584 bytes, a latched record well formed and holding PC. Rests on the spec's own decisions
D3, D4, D6, D31, D32 (log entry 12). -/
def Obligations.StepKeepsTheInvariant : Prop :=
  ∀ s t : State, s.Inv → step s = .next t → t.Inv

/-- The same for every host operation (40_cycle.md R62), and so for every schedule of them (R73), under any parameters.
Rests on the spec's own decisions D1, D27 (log entry 12). -/
def Obligations.SchedulesKeepTheInvariant : Prop :=
  ∀ (p : Parameters) (ops : List HostOp) (s t : State) (rs : List HostResult), s.Inv →
    runSchedule ops s p = .next (t, rs) → t.Inv

/-- 40_cycle.md R64, 30_encoding.md R56: from a state that meets the invariant the model never stops and never refuses a
step, and whatever the bytes in memory a schedule stops only at a call outside 40_cycle.md R74's preconditions. Rests on
the spec's own decisions D25, D27, D28 (log entry 12). -/
def Obligations.EveryStepHasANextState : Prop :=
  (∀ s : State, s.Inv → SafeStep s) ∧
  ∀ (p : Parameters) (ops : List HostOp) (s : State), s.Inv →
    (∀ op ∈ ops, (∀ bytes, op = .loadProgram bytes → bytes.length ≤ 3584) ∧
      (∀ k, op = .keyPressed k ∨ op = .keyReleased k → k < 16)) →
    ∃ t rs, runSchedule ops s p = .next (t, rs) ∧ rs.length = ops.length

/-! ### Reset and the host (70_reset_and_hazards.md) -/

/-- 70_reset_and_hazards.md R141, 20_memory.md R39: every element of the spec's state, memory byte by byte, for any FONT;
the default FONT is the table. Rests on the spec's own decisions D7, D21, D26 (log entry 12). -/
def Obligations.ResetRestoresEveryElement : Prop :=
  Parameters.default.font.toList = fontTable ∧
  ∀ (p : Parameters) (s : State), s.image.length ≤ 3584 →
    (∀ a : Nat, (hostReset s p).mem.read a =
      if h : a < 0x50 then p.font[a]
      else if 0x200 ≤ a ∧ a < 0x200 + s.image.length then s.image.getD (a - 0x200) 0 else 0) ∧
    (∀ r : Reg, (hostReset s p).reg r = 0) ∧ (hostReset s p).i = 0 ∧ (hostReset s p).dt = 0 ∧ (hostReset s p).st = 0 ∧
    (∀ j : Fin 16, (hostReset s p).stack[j.val] = 0) ∧ (hostReset s p).sp = 0 ∧ (hostReset s p).pc = 0x200 ∧
    (∀ px py : Nat, pixel (hostReset s p).disp px py = false) ∧ (∀ k : Fin 16, (hostReset s p).key[k.val] = false) ∧
    (hostReset s p).mode = .run ∧ (hostReset s p).image = s.image

/-- 70_reset_and_hazards.md R142, R144: a load remembers the image and resets; an image of more than 3584 bytes is
refused. Rests on the spec's own decisions D25, D29 (log entry 12). -/
def Obligations.LoadRemembersTheImageAndResets : Prop :=
  ∀ (p : Parameters) (bytes : List Byte) (s : State),
    (bytes.length ≤ 3584 → hostOp (.loadProgram bytes) s p = .next (hostReset { s with image := bytes } p, .none)) ∧
    (bytes.length > 3584 → hostOp (.loadProgram bytes) s p = .refused (.imageTooLong bytes.length))

/-- 70_reset_and_hazards.md R146: a reset after any schedule without a load gives the state a reset before it gives, in
every element of the spec's state (the model's own counter of draws set aside, log entry 6). Rests on the spec's own
decisions D7, D29 (log entry 12). -/
def Obligations.ResetForgetsTheRun : Prop :=
  (∀ (p : Parameters) (s : State), hostReset (hostReset s p) p = hostReset s p) ∧
  ∀ (p : Parameters) (ops : List HostOp) (s t : State) (rs : List HostResult), (∀ bytes, HostOp.loadProgram bytes ∉ ops) →
    runSchedule ops s p = .next (t, rs) → { hostReset t p with draws := 0 } = { hostReset s p with draws := 0 }

/-- 45_keys_timers.md R115, R120, R121, 44_display.md R112, 40_cycle.md R74: the host's key edges, tick and reads. Rests
on the spec's own decisions D1, D28, D36, D42 (log entry 12). -/
def Obligations.HostKeysTicksAndReads : Prop :=
  ∀ (p : Parameters) (s : State),
    (∀ k : Fin 16, hostOp (.keyPressed k.val) s p = .next ({ s with key := s.key.set k.val true }, .none) ∧
      hostOp (.keyReleased k.val) s p = .next ({ s with key := s.key.set k.val false }, .none)) ∧
    (∀ k : Nat, k ≥ 16 → hostOp (.keyPressed k) s p = .refused (.keyIndex k) ∧
      hostOp (.keyReleased k) s p = .refused (.keyIndex k)) ∧
    hostOp .frequencyStep s p = .next ({ s with
      dt := BitVec.ofNat 8 (s.dt.toNat - 1), st := BitVec.ofNat 8 (s.st.toNat - 1) }, .none) ∧
    hostOp .pixelStates s p = .next (s, .grid s.disp) ∧
    hostOp .soundOn s p = .next (s, .sound (decide (s.st ≠ 0)))
end

