-- ==== Sys2Proof/Laws/Decode.lean ====
section
/-! SUPPORT. The fields of a word in each format (30_encoding.md R53), so that proofs about decoding cite these and never
unfold a format; and the two bytes of a word. -/

namespace Sys2Proof

/-! ### Fields as arithmetic -/

theorem opOf_eq (w : Word) : opOf w = w.toNat / 4096 := by
  have := w.isLt
  simp only [opOf, field]
  omega

theorem nOf_eq (w : Word) : nOf w = w.toNat % 16 := by simp [nOf, field]

theorem lowField_eq (w : Word) : field w 7 0 = w.toNat % 256 := by simp [field]

theorem xOf_val (w : Word) : (xOf w).val = w.toNat / 256 % 16 := by simp [xOf, field]

theorem yOf_val (w : Word) : (yOf w).val = w.toNat / 16 % 16 := by simp [yOf, field]

theorem kkOf_toNat (w : Word) : (kkOf w).toNat = w.toNat % 256 := by simp [kkOf, field]

theorem nnnOf_toNat (w : Word) : (nnnOf w).toNat = w.toNat % 4096 := by
  simp only [nnnOf, field, BitVec.toNat_ofNat]
  omega

/-! ### The formats -/

theorem formatNNN_toNat {op : Nat} (h : op < 16) (nnn : Word) :
    (formatNNN op nnn).toNat = op * 4096 + nnn.toNat % 4096 := by
  simp only [formatNNN, BitVec.toNat_ofNat]
  omega

theorem formatXKK_toNat {op : Nat} (h : op < 16) (x : Reg) (kk : Byte) :
    (formatXKK op x kk).toNat = op * 4096 + x.val * 256 + kk.toNat := by
  have := x.isLt
  have := kk.isLt
  simp only [formatXKK, BitVec.toNat_ofNat]
  omega

theorem formatXYN_toNat {op : Nat} (h : op < 16) (x y : Reg) (n : Nat) :
    (formatXYN op x y n).toNat = op * 4096 + x.val * 256 + y.val * 16 + n % 16 := by
  have := x.isLt
  have := y.isLt
  simp only [formatXYN, BitVec.toNat_ofNat]
  omega

/-! ### Fields of each format -/

theorem opOf_formatNNN {op : Nat} (h : op < 16) (nnn : Word) : opOf (formatNNN op nnn) = op := by
  rw [opOf_eq, formatNNN_toNat h]
  omega

theorem nnnOf_formatNNN {op : Nat} (h : op < 16) {nnn : Word} (hn : nnn.toNat < 4096) :
    nnnOf (formatNNN op nnn) = nnn := by
  apply BitVec.eq_of_toNat_eq
  rw [nnnOf_toNat, formatNNN_toNat h]
  omega

theorem opOf_formatXKK {op : Nat} (h : op < 16) (x : Reg) (kk : Byte) : opOf (formatXKK op x kk) = op := by
  have := x.isLt
  have := kk.isLt
  rw [opOf_eq, formatXKK_toNat h]
  omega

theorem xOf_formatXKK {op : Nat} (h : op < 16) (x : Reg) (kk : Byte) : xOf (formatXKK op x kk) = x := by
  have := x.isLt
  have := kk.isLt
  apply Fin.ext
  rw [xOf_val, formatXKK_toNat h]
  omega

theorem kkOf_formatXKK {op : Nat} (h : op < 16) (x : Reg) (kk : Byte) : kkOf (formatXKK op x kk) = kk := by
  have := kk.isLt
  apply BitVec.eq_of_toNat_eq
  rw [kkOf_toNat, formatXKK_toNat h]
  omega

theorem lowField_formatXKK {op : Nat} (h : op < 16) (x : Reg) (kk : Byte) :
    field (formatXKK op x kk) 7 0 = kk.toNat := by
  have := kk.isLt
  rw [lowField_eq, formatXKK_toNat h]
  omega

theorem opOf_formatXYN {op : Nat} (h : op < 16) (x y : Reg) (n : Nat) : opOf (formatXYN op x y n) = op := by
  have := x.isLt
  have := y.isLt
  rw [opOf_eq, formatXYN_toNat h]
  omega

theorem xOf_formatXYN {op : Nat} (h : op < 16) (x y : Reg) (n : Nat) : xOf (formatXYN op x y n) = x := by
  have := x.isLt
  have := y.isLt
  apply Fin.ext
  rw [xOf_val, formatXYN_toNat h]
  omega

theorem yOf_formatXYN {op : Nat} (h : op < 16) (x y : Reg) (n : Nat) : yOf (formatXYN op x y n) = y := by
  have := y.isLt
  apply Fin.ext
  rw [yOf_val, formatXYN_toNat h]
  omega

theorem nOf_formatXYN {op : Nat} (h : op < 16) (x y : Reg) (n : Nat) : nOf (formatXYN op x y n) = n % 16 := by
  rw [nOf_eq, formatXYN_toNat h]
  omega

/-! ### The masks of the opcode table as arithmetic -/

theorem and_family (w : Word) : (w &&& 0xF000).toNat = w.toNat / 4096 * 4096 := by
  have hw := w.isLt
  have hm : (0xF000 : Word).toNat = (2 ^ 4 - 1) <<< 12 := by decide
  rw [BitVec.toNat_and, hm, show w.toNat / 4096 * 4096 = w.toNat >>> 12 <<< 12 by
    rw [Nat.shiftRight_eq_div_pow, Nat.shiftLeft_eq]]
  apply Nat.eq_of_testBit_eq
  intro i
  rw [Nat.testBit_and, Nat.testBit_shiftLeft, Nat.testBit_shiftLeft, Nat.testBit_two_pow_sub_one, Nat.testBit_shiftRight]
  by_cases hlow : 12 ≤ i
  · have hi : 12 + (i - 12) = i := by omega
    by_cases hhigh : i < 16
    · simp [hlow, hi, show i - 12 < 4 by omega]
    · have hz : w.toNat.testBit i = false :=
        Nat.testBit_lt_two_pow (lt_of_lt_of_le hw (Nat.pow_le_pow_right (by decide) (by omega)))
      simp [hi, hz]
  · simp [hlow]

/-- A mask of the family nibble and the low `k` bits. -/
theorem and_family_low (w : Word) {k : Nat} (hk : k ≤ 12) :
    (w &&& (0xF000 ||| BitVec.ofNat 16 (2 ^ k - 1))).toNat = w.toNat / 4096 * 4096 + w.toNat % 2 ^ k := by
  have hk' : 2 ^ k ≤ 2 ^ 12 := Nat.pow_le_pow_right (by decide) hk
  have hlt : w.toNat % 2 ^ k < 2 ^ 12 := lt_of_lt_of_le (Nat.mod_lt _ (Nat.two_pow_pos k)) hk'
  have hmod : (2 ^ k - 1) % 2 ^ 16 = 2 ^ k - 1 := Nat.mod_eq_of_lt (by omega)
  have hfam := and_family w
  rw [BitVec.toNat_and] at hfam
  rw [BitVec.toNat_and, BitVec.toNat_or, Nat.and_or_distrib_left, hfam, BitVec.toNat_ofNat, hmod,
    Nat.and_two_pow_sub_one_eq_mod, show w.toNat / 4096 * 4096 = 2 ^ 12 * (w.toNat / 4096) by omega,
    Nat.two_pow_add_eq_or_of_lt hlt]

theorem and_F00F (w : Word) : (w &&& 0xF00F).toNat = w.toNat / 4096 * 4096 + w.toNat % 16 :=
  and_family_low w (k := 4) (by decide)

theorem and_F0FF (w : Word) : (w &&& 0xF0FF).toNat = w.toNat / 4096 * 4096 + w.toNat % 256 :=
  and_family_low w (k := 8) (by decide)

/-- The row of a word in format NNN. -/
theorem formatNNN_row {op : Nat} (h : op < 16) (nnn : Word) :
    (formatNNN op nnn &&& 0xF000).toNat = op * 4096 := by
  rw [and_family, formatNNN_toNat h]
  omega

/-- The row of a word in format XKK. -/
theorem formatXKK_row {op : Nat} (h : op < 16) (x : Reg) (kk : Byte) :
    (formatXKK op x kk &&& 0xF000).toNat = op * 4096 := by
  have := x.isLt
  have := kk.isLt
  rw [and_family, formatXKK_toNat h]
  omega

/-- The row of a word in format XS. -/
theorem formatXS_row {op : Nat} (h : op < 16) (x : Reg) (kk : Byte) :
    (formatXKK op x kk &&& 0xF0FF).toNat = op * 4096 + kk.toNat := by
  have := x.isLt
  have := kk.isLt
  rw [and_F0FF, formatXKK_toNat h]
  omega

/-- The row of a word in format XYS. -/
theorem formatXYS_row {op : Nat} (h : op < 16) (x y : Reg) {n : Nat} (hn : n < 16) :
    (formatXYN op x y n &&& 0xF00F).toNat = op * 4096 + n := by
  have := x.isLt
  have := y.isLt
  rw [and_F00F, formatXYN_toNat h]
  omega

/-- The row of a word in format XYN. -/
theorem formatXYN_row {op : Nat} (h : op < 16) (x y : Reg) (n : Nat) :
    (formatXYN op x y n &&& 0xF000).toNat = op * 4096 := by
  have := x.isLt
  have := y.isLt
  rw [and_family, formatXYN_toNat h]
  omega

/-! ### The two bytes of a word (20_memory.md R40) -/

theorem bigEndian_toNat (hi lo : Byte) : (bigEndian hi lo).toNat = hi.toNat * 256 + lo.toNat := by
  have := lo.isLt
  rw [bigEndian, BitVec.toNat_append, Nat.shiftLeft_eq, Nat.mul_comm]
  rw [← Nat.two_pow_add_eq_or_of_lt this]

theorem bigEndian_bytes (w : Word) : bigEndian (highByte w) (lowByte w) = w := by
  have := w.isLt
  apply BitVec.eq_of_toNat_eq
  rw [bigEndian_toNat]
  simp only [highByte, lowByte, field, BitVec.toNat_ofNat]
  omega

theorem decodeBytes_encodeBytes (i : Instr) (rest : List Byte) :
    decodeBytes (encodeBytes i ++ rest) = some (decode (encode i), rest) := by
  simp [decodeBytes, encodeBytes, bigEndian_bytes]

end Sys2Proof
end

