-- ==== Sys2Proof/Laws/Display.lean ====
section
/-! SUPPORT. What drawing does, pixel by pixel (44_display.md R109 to R111): the loop of `displayDraw` toggles each covered
pixel once, so its order does not matter. -/

namespace Sys2Proof.Machine

/-- A pixel that is on is on the grid. -/
theorem onGrid_of_pixel {g : Grid} {px py : Nat} (h : pixel g px py = true) : px < 64 ∧ py < 32 := by
  by_contra hn
  simp [pixel, hn] at h

/-- Toggling changes one pixel of the grid, or none off it. -/
theorem pixel_togglePixel (g : Grid) (px py qx qy : Nat) :
    pixel (togglePixel g px py) qx qy =
      if qx = px ∧ qy = py ∧ px < 64 ∧ py < 32 then !pixel g px py else pixel g qx qy := by
  by_cases hp : px < 64 ∧ py < 32
  · by_cases hq : qx < 64 ∧ qy < 32
    · by_cases hy : py = qy
      · subst hy
        by_cases hx : px = qx
        · subst hx
          simp [pixel, togglePixel, hp]
        · simp [pixel, togglePixel, hp, hq, hx, Ne.symm hx]
      · simp [pixel, togglePixel, hp, hq, hy, Ne.symm hy]
    · have hne : ¬(qx = px ∧ qy = py ∧ px < 64 ∧ py < 32) := by
        rintro ⟨rfl, rfl, h⟩
        exact hq h
      rw [if_neg hne]
      simp [pixel, hq]
  · simp [togglePixel, hp]

/-- The first `k` columns of a row cover a pixel with a set bit. -/
def rowCovers (row : Byte) (px py k qx qy : Nat) : Bool :=
  decide (qy = py ∧ px ≤ qx ∧ qx < px + k) && spriteBit row (qx - px)

/-- The rows of a sprite at `(px, py)` cover a pixel with a set bit. -/
def rowsCover (rows : List Byte) (px py qx qy : Nat) : Bool :=
  decide (px ≤ qx ∧ qx < px + 8 ∧ py ≤ qy ∧ qy < py + rows.length) && spriteBit (rows.getD (qy - py) 0) (qx - px)

theorem rowCovers_succ (row : Byte) (px py k qx qy : Nat) :
    rowCovers row px py (k + 1) qx qy =
      (rowCovers row px py k qx qy || (decide (qx = px + k ∧ qy = py) && spriteBit row k)) := by
  by_cases hx : qx = px + k ∧ qy = py
  · obtain ⟨rfl, rfl⟩ := hx
    simp [rowCovers]
  · have : (qy = py ∧ px ≤ qx ∧ qx < px + (k + 1)) ↔ (qy = py ∧ px ≤ qx ∧ qx < px + k) := by omega
    simp [rowCovers, hx, this]

/-- The columns drawn so far: each covered pixel is toggled, and a collision is a covered pixel that was on. -/
theorem blit_columns (row : Byte) (px py k : Nat) (acc : Grid × Bool) :
    let out := (List.range k).foldl (fun acc c => blitBit row px py c acc) acc
    (∀ qx qy, qx < 64 → qy < 32 → pixel out.1 qx qy = (pixel acc.1 qx qy ^^ rowCovers row px py k qx qy)) ∧
    (out.2 = true ↔ acc.2 = true ∨ ∃ qx qy, pixel acc.1 qx qy = true ∧ rowCovers row px py k qx qy = true) := by
  induction k with
  | zero =>
    have hnone : ∀ qx qy, rowCovers row px py 0 qx qy = false := fun qx qy => by
      have : ¬(qy = py ∧ px ≤ qx ∧ qx < px + 0) := by omega
      simp only [rowCovers, this]
      simp
    simp [hnone]
  | succ k ih =>
    rw [List.range_succ, List.foldl_append]
    obtain ⟨hpix, hhit⟩ := ih
    revert hpix hhit
    generalize (List.range k).foldl (fun acc c => blitBit row px py c acc) acc = mid
    intro hpix hhit
    have hself : rowCovers row px py k (px + k) py = false := by simp [rowCovers]
    by_cases hb : spriteBit row k = true
    · have hout : [k].foldl (fun acc c => blitBit row px py c acc) mid =
          (togglePixel mid.1 (px + k) py, mid.2 || pixel mid.1 (px + k) py) := by simp [blitBit, hb]
      rw [hout]
      refine ⟨fun qx qy hqx hqy => ?_, ?_⟩
      · rw [pixel_togglePixel, rowCovers_succ]
        by_cases hq : qx = px + k ∧ qy = py
        · obtain ⟨rfl, rfl⟩ := hq
          simp [hqx, hqy, hpix _ _ hqx hqy, hself, hb]
        · have : ¬(qx = px + k ∧ qy = py ∧ px + k < 64 ∧ py < 32) := fun h => hq ⟨h.1, h.2.1⟩
          simp [this, hq, hpix _ _ hqx hqy]
      · simp only [Bool.or_eq_true, hhit]
        have hpk : pixel mid.1 (px + k) py = true ↔ pixel acc.1 (px + k) py = true := by
          constructor <;> intro h <;> have hg := onGrid_of_pixel h
          · simpa [hpix _ _ hg.1 hg.2, hself] using h
          · simpa [hpix _ _ hg.1 hg.2, hself] using h
        rw [hpk, or_assoc]
        refine or_congr_right ⟨?_, ?_⟩
        · rintro (⟨qx, qy, h1, h2⟩ | h)
          · exact ⟨qx, qy, h1, by simp [rowCovers_succ, h2]⟩
          · exact ⟨px + k, py, h, by simp [rowCovers_succ, hb]⟩
        · rintro ⟨qx, qy, h1, h2⟩
          rw [rowCovers_succ, Bool.or_eq_true] at h2
          rcases h2 with h2 | h2
          · exact .inl ⟨qx, qy, h1, h2⟩
          · obtain ⟨⟨rfl, rfl⟩, _⟩ : (qx = px + k ∧ qy = py) ∧ spriteBit row k = true := by simpa using h2
            exact .inr h1
    · have hout : [k].foldl (fun acc c => blitBit row px py c acc) mid = mid := by simp [blitBit, hb]
      rw [hout]
      simp only [Bool.not_eq_true] at hb
      simpa [rowCovers_succ, hb] using ⟨hpix, hhit⟩

/-- A sprite's top row, then the rows below it. -/
theorem rowsCover_cons (row : Byte) (rows : List Byte) (px py qx qy : Nat) :
    rowsCover (row :: rows) px py qx qy = (rowCovers row px py 8 qx qy ^^ rowsCover rows px (py + 1) qx qy) := by
  by_cases hy : qy = py
  · subst hy
    by_cases hx : px ≤ qx ∧ qx < px + 8 <;> simp [rowsCover, rowCovers, hx]
  · by_cases hlt : py < qy
    · obtain ⟨d, rfl⟩ := Nat.exists_eq_add_of_lt hlt
      have h1 : py + d + 1 - py = d + 1 := by omega
      have h2 : py + d + 1 - (py + 1) = d := by omega
      have h3 : (px ≤ qx ∧ qx < px + 8 ∧ py ≤ py + d + 1 ∧ py + d + 1 < py + (row :: rows).length) ↔
          (px ≤ qx ∧ qx < px + 8 ∧ py + 1 ≤ py + d + 1 ∧ py + d + 1 < py + 1 + rows.length) := by
        simp only [List.length_cons]
        omega
      unfold rowsCover rowCovers
      rw [h1, h2, List.getD_cons_succ, show decide (_ ∧ _) = decide (_ ∧ _) from decide_eq_decide.mpr h3]
      simp [hy]
    · have h3 : ¬(px ≤ qx ∧ qx < px + 8 ∧ py ≤ qy ∧ qy < py + (row :: rows).length) := by omega
      have h4 : ¬(px ≤ qx ∧ qx < px + 8 ∧ py + 1 ≤ qy ∧ qy < py + 1 + rows.length) := by omega
      simp only [rowsCover, rowCovers, h3, h4, hy]
      simp

theorem rowCovers_of_rowsCover_tail {row : Byte} {rows : List Byte} {px py qx qy : Nat}
    (h : rowsCover rows px (py + 1) qx qy = true) : rowCovers row px py 8 qx qy = false := by
  have hle : py + 1 ≤ qy := by
    simp only [rowsCover, Bool.and_eq_true, decide_eq_true_eq] at h
    exact h.1.2.2.1
  simp [rowCovers, show qy ≠ py by omega]

/-- All that drawing rows does: each covered pixel of the grid is toggled, and a collision is a covered pixel that was
on. -/
theorem blitRows_spec (rows : List Byte) (px py : Nat) (acc : Grid × Bool) :
    (∀ qx qy, qx < 64 → qy < 32 →
      pixel (blitRows rows px py acc).1 qx qy = (pixel acc.1 qx qy ^^ rowsCover rows px py qx qy)) ∧
    ((blitRows rows px py acc).2 = true ↔
      acc.2 = true ∨ ∃ qx qy, pixel acc.1 qx qy = true ∧ rowsCover rows px py qx qy = true) := by
  induction rows generalizing py acc with
  | nil =>
    have hnil : ∀ qx qy, rowsCover [] px py qx qy = false := by
      intro qx qy
      have : ¬(px ≤ qx ∧ qx < px + 8 ∧ py ≤ qy ∧ qy < py + ([] : List Byte).length) := by
        simp only [List.length_nil]
        omega
      simp only [rowsCover, this]
      simp
    simp [blitRows, hnil]
  | cons row rows ih =>
    obtain ⟨hpix, hhit⟩ := ih (py + 1) (blitRow row px py acc)
    obtain ⟨hpix0, hhit0⟩ : _ ∧ _ := blit_columns row px py 8 acc
    change ∀ qx qy, qx < 64 → qy < 32 → pixel (blitRow row px py acc).1 qx qy = _ at hpix0
    change (blitRow row px py acc).2 = true ↔ _ at hhit0
    simp only [blitRows]
    refine ⟨fun qx qy hqx hqy => ?_, ?_⟩
    · rw [hpix _ _ hqx hqy, hpix0 _ _ hqx hqy, rowsCover_cons, Bool.xor_assoc]
    · rw [hhit, hhit0, or_assoc]
      refine or_congr_right ⟨?_, ?_⟩
      · rintro (⟨qx, qy, h1, h2⟩ | ⟨qx, qy, h1, h2⟩)
        · have htail : rowsCover rows px (py + 1) qx qy = false := by
            by_contra h
            rw [rowCovers_of_rowsCover_tail (by simpa using h)] at h2
            exact Bool.noConfusion h2
          exact ⟨qx, qy, h1, by rw [rowsCover_cons, h2, htail]; rfl⟩
        · obtain ⟨hqx, hqy⟩ := onGrid_of_pixel h1
          have hrow := rowCovers_of_rowsCover_tail (row := row) h2
          rw [hpix0 _ _ hqx hqy, hrow, Bool.xor_false] at h1
          exact ⟨qx, qy, h1, by rw [rowsCover_cons, h2, hrow]; rfl⟩
      · rintro ⟨qx, qy, h1, h2⟩
        obtain ⟨hqx, hqy⟩ := onGrid_of_pixel h1
        cases hrow : rowCovers row px py 8 qx qy with
        | true => exact .inl ⟨qx, qy, h1, hrow⟩
        | false =>
          rw [rowsCover_cons, hrow, Bool.false_xor] at h2
          exact .inr ⟨qx, qy, by rw [hpix0 _ _ hqx hqy, hrow, Bool.xor_false, h1], h2⟩

@[simp] theorem pixel_displayClear (px py : Nat) : pixel displayClear px py = false := by
  simp [pixel, displayClear]

end Sys2Proof.Machine
end

