-- ==== Sys2Proof/Laws/Memory.lean ====
section
/-! SUPPORT. The laws of memory: what a read gives after each operation, and that each keeps the canonical form. -/

namespace Sys2Proof.Machine

/-! ### Canonical form -/

theorem Memory.wf_nil : Memory.wf [] = true := rfl

theorem Memory.wf_cons {c : Host.Cell} {m : Memory} :
    Memory.wf (c :: m) = true ↔
      c.1 < memSize ∧ c.2 ≠ unlistedByte c.1 ∧ (∀ d ∈ m, c.1 < d.1) ∧ Memory.wf m = true := by
  simp [Memory.wf, and_assoc]

theorem Memory.wf_filter {m : Memory} (p : Host.Cell → Bool) (h : m.wf = true) :
    Memory.wf (m.filter p) = true := by
  induction m with
  | nil => rfl
  | cons c m ih =>
    obtain ⟨hc, hv, hlt, hm⟩ := Memory.wf_cons.mp h
    cases hp : p c
    · simpa [List.filter_cons, hp] using ih hm
    · rw [List.filter_cons_of_pos hp]
      exact Memory.wf_cons.mpr ⟨hc, hv, fun d hd => hlt d (List.mem_of_mem_filter hd), ih hm⟩

theorem Memory.mem_insertCell {m : Memory} {c d : Host.Cell} :
    d ∈ Memory.insertCell m c ↔ d = c ∨ d ∈ m := by
  induction m with
  | nil => simp [Memory.insertCell]
  | cons e m ih =>
    by_cases hlt : c.1 < e.1 <;> simp [Memory.insertCell, hlt, ih]; tauto

theorem Memory.wf_insertCell {m : Memory} {c : Host.Cell} (h : m.wf = true) (hc : c.1 < memSize)
    (hv : c.2 ≠ unlistedByte c.1) (hne : ∀ d ∈ m, d.1 ≠ c.1) : Memory.wf (Memory.insertCell m c) = true := by
  induction m with
  | nil => exact Memory.wf_cons.mpr ⟨hc, hv, by simp, rfl⟩
  | cons e m ih =>
    obtain ⟨he, hev, hlt, hm⟩ := Memory.wf_cons.mp h
    have hec : e.1 ≠ c.1 := hne e (by simp)
    by_cases hlt' : c.1 < e.1
    · simp only [Memory.insertCell, if_pos hlt']
      refine Memory.wf_cons.mpr ⟨hc, hv, fun d hd => ?_, h⟩
      rcases List.mem_cons.mp hd with rfl | hd
      · exact hlt'
      · exact lt_trans hlt' (hlt d hd)
    · simp only [Memory.insertCell, if_neg hlt']
      refine Memory.wf_cons.mpr ⟨he, hev, fun d hd => ?_, ih hm fun d hd => hne d (by simp [hd])⟩
      rcases Memory.mem_insertCell.mp hd with rfl | hd
      · omega
      · exact hlt d hd

/-- A write in range keeps the canonical form. -/
theorem Memory.wf_write {m : Memory} {a : Nat} {b : Byte} (h : m.wf = true) (ha : a < memSize) :
    (m.write a b).wf = true := by
  simp only [Memory.write]
  split
  · exact Memory.wf_filter _ h
  · rename_i hb
    exact Memory.wf_insertCell (Memory.wf_filter _ h) ha hb fun d hd => by simpa using (List.mem_filter.mp hd).2

/-- Writing consecutive bytes in range keeps the canonical form. -/
theorem Memory.wf_writeBytes {m : Memory} {a : Nat} {bs : List Byte} (h : m.wf = true)
    (ha : a + bs.length ≤ memSize) : (m.writeBytes a bs).wf = true := by
  induction bs generalizing m a with
  | nil => exact h
  | cons b bs ih =>
    simp only [List.length_cons] at ha
    exact ih (Memory.wf_write h (by omega)) (by omega)

/-! ### Range (20_memory.md R41) -/

theorem firstOutOfRange_eq_none {a n : Nat} : firstOutOfRange a n = none ↔ n = 0 ∨ a + n ≤ 4096 := by
  by_cases h : n = 0 ∨ a + n ≤ memSize
  · exact ⟨fun _ => h, fun _ => if_pos h⟩
  · exact ⟨fun hn => absurd hn (by simp [firstOutOfRange, if_neg h]), fun hn => absurd hn h⟩

theorem firstOutOfRange_eq_some {a n bad : Nat} :
    firstOutOfRange a n = some bad ↔ 0 < n ∧ 4096 < a + n ∧ bad = max a 4096 := by
  by_cases h : n = 0 ∨ a + n ≤ memSize <;> simp only [firstOutOfRange, if_pos, if_neg, h, not_false_eq_true] <;>
    simp only [memSize, reduceCtorEq, Option.some.injEq, false_iff] at h ⊢ <;> omega

/-- All that a block read can answer: the bytes, or the first address out of range. -/
theorem loadBytes_cases (m : Memory) (a n : Nat) :
    (n = 0 ∨ a + n ≤ 4096) ∧ loadBytes m a n = .ok (m.readBytes a n) ∨
    0 < n ∧ 4096 < a + n ∧ loadBytes m a n = .error (.raised .addressOutOfRange (.address (max a 4096))) := by
  unfold loadBytes
  cases h : firstOutOfRange a n with
  | none => exact .inl ⟨firstOutOfRange_eq_none.mp h, rfl⟩
  | some bad =>
    obtain ⟨h1, h2, rfl⟩ := firstOutOfRange_eq_some.mp h
    exact .inr ⟨h1, h2, rfl⟩

/-- All that a block write can answer: the bytes written, or the first address out of range and nothing written. -/
theorem storeBytes_cases (m : Memory) (a : Nat) (bs : List Byte) :
    (bs.length = 0 ∨ a + bs.length ≤ 4096) ∧ storeBytes m a bs = .ok (m.writeBytes a bs) ∨
    0 < bs.length ∧ 4096 < a + bs.length ∧
      storeBytes m a bs = .error (.raised .addressOutOfRange (.address (max a 4096))) := by
  unfold storeBytes
  cases h : firstOutOfRange a bs.length with
  | none => exact .inl ⟨firstOutOfRange_eq_none.mp h, rfl⟩
  | some bad =>
    obtain ⟨h1, h2, rfl⟩ := firstOutOfRange_eq_some.mp h
    exact .inr ⟨h1, h2, rfl⟩

/-- A successful block write keeps the canonical form. -/
theorem Memory.wf_storeBytes {m m' : Memory} {a : Nat} {bs : List Byte} (h : m.wf = true)
    (hs : storeBytes m a bs = .ok m') : m'.wf = true := by
  rcases storeBytes_cases m a bs with ⟨hr, he⟩ | ⟨_, _, he⟩
  · obtain rfl : m.writeBytes a bs = m' := by simpa [he] using hs
    rcases hr with h0 | hr
    · obtain rfl := List.length_eq_zero_iff.mp h0
      exact h
    · exact Memory.wf_writeBytes h hr
  · simp [he] at hs

/-- The fetch in range: the big-endian pair (40_cycle.md R66). -/
theorem fetchWord_inRange {m : Memory} {a : Nat} (h : a + 2 ≤ 4096) :
    fetchWord m a = .ok (bigEndian (m.read a) (m.read (a + 1))) := by
  simp [fetchWord, firstOutOfRange_eq_none.mpr (.inr h)]

/-- The fetch out of range: the first address out of range (40_cycle.md R66). -/
theorem fetchWord_outOfRange {m : Memory} {a : Nat} (h : ¬a + 2 ≤ 4096) : fetchWord m a = .error (max a 4096) := by
  have hf : firstOutOfRange a 2 = some (max a 4096) := firstOutOfRange_eq_some.mpr ⟨by decide, by omega, rfl⟩
  simp [fetchWord, hf]

/-! ### Reads after block operations -/

@[simp] theorem Memory.length_readBytes (m : Memory) (a n : Nat) : (m.readBytes a n).length = n := by
  induction n generalizing a with
  | zero => rfl
  | succ n ih => simp [Memory.readBytes, ih]

/-- Byte `k` of a block read. -/
theorem Memory.getD_readBytes (m : Memory) (a n k : Nat) (d : Byte) :
    (m.readBytes a n).getD k d = if k < n then m.read (a + k) else d := by
  induction n generalizing a k with
  | zero => simp [Memory.readBytes]
  | succ n ih =>
    cases k with
    | zero => simp [Memory.readBytes]
    | succ k =>
      simp only [Memory.readBytes, List.getD_cons_succ, ih, Nat.add_lt_add_iff_right]
      rw [Nat.add_assoc, Nat.add_comm 1 k]

/-- The reset contents of an address outside the font. -/
theorem unlistedByte_of_le {a : Nat} (h : 80 ≤ a) : unlistedByte a = 0 := by
  unfold unlistedByte
  rw [List.getD_eq_default]
  exact h

end Sys2Proof.Machine
end

