-- ==== Sys2Proof/Laws/State.lean ====
section
/-! SUPPORT. The fields of an updated state, one lemma per field per update, so that no later proof unfolds a record update;
then what reading a register, a latch or the composed updates gives. -/

namespace Sys2Proof.Machine

variable (s : State)

/-! ### setReg -/

@[simp] theorem State.setReg_v (r : Reg) (b : Byte) : (s.setReg r b).v = s.v.set r.val b := rfl
@[simp] theorem State.setReg_i (r : Reg) (b : Byte) : (s.setReg r b).i = s.i := rfl
@[simp] theorem State.setReg_pc (r : Reg) (b : Byte) : (s.setReg r b).pc = s.pc := rfl
@[simp] theorem State.setReg_dt (r : Reg) (b : Byte) : (s.setReg r b).dt = s.dt := rfl
@[simp] theorem State.setReg_st (r : Reg) (b : Byte) : (s.setReg r b).st = s.st := rfl
@[simp] theorem State.setReg_stack (r : Reg) (b : Byte) : (s.setReg r b).stack = s.stack := rfl
@[simp] theorem State.setReg_sp (r : Reg) (b : Byte) : (s.setReg r b).sp = s.sp := rfl
@[simp] theorem State.setReg_mem (r : Reg) (b : Byte) : (s.setReg r b).mem = s.mem := rfl
@[simp] theorem State.setReg_disp (r : Reg) (b : Byte) : (s.setReg r b).disp = s.disp := rfl
@[simp] theorem State.setReg_key (r : Reg) (b : Byte) : (s.setReg r b).key = s.key := rfl
@[simp] theorem State.setReg_mode (r : Reg) (b : Byte) : (s.setReg r b).mode = s.mode := rfl
@[simp] theorem State.setReg_image (r : Reg) (b : Byte) : (s.setReg r b).image = s.image := rfl
@[simp] theorem State.setReg_draws (r : Reg) (b : Byte) : (s.setReg r b).draws = s.draws := rfl

/-! ### setI -/

@[simp] theorem State.setI_v (w : Word) : (s.setI w).v = s.v := rfl
@[simp] theorem State.setI_i (w : Word) : (s.setI w).i = w := rfl
@[simp] theorem State.setI_pc (w : Word) : (s.setI w).pc = s.pc := rfl
@[simp] theorem State.setI_dt (w : Word) : (s.setI w).dt = s.dt := rfl
@[simp] theorem State.setI_st (w : Word) : (s.setI w).st = s.st := rfl
@[simp] theorem State.setI_stack (w : Word) : (s.setI w).stack = s.stack := rfl
@[simp] theorem State.setI_sp (w : Word) : (s.setI w).sp = s.sp := rfl
@[simp] theorem State.setI_mem (w : Word) : (s.setI w).mem = s.mem := rfl
@[simp] theorem State.setI_disp (w : Word) : (s.setI w).disp = s.disp := rfl
@[simp] theorem State.setI_key (w : Word) : (s.setI w).key = s.key := rfl
@[simp] theorem State.setI_mode (w : Word) : (s.setI w).mode = s.mode := rfl
@[simp] theorem State.setI_image (w : Word) : (s.setI w).image = s.image := rfl
@[simp] theorem State.setI_draws (w : Word) : (s.setI w).draws = s.draws := rfl
@[simp] theorem State.reg_setI (w : Word) (q : Reg) : (s.setI w).reg q = s.reg q := rfl

/-! ### setPc -/

@[simp] theorem State.setPc_v (w : Word) : (s.setPc w).v = s.v := rfl
@[simp] theorem State.setPc_i (w : Word) : (s.setPc w).i = s.i := rfl
@[simp] theorem State.setPc_pc (w : Word) : (s.setPc w).pc = w := rfl
@[simp] theorem State.setPc_dt (w : Word) : (s.setPc w).dt = s.dt := rfl
@[simp] theorem State.setPc_st (w : Word) : (s.setPc w).st = s.st := rfl
@[simp] theorem State.setPc_stack (w : Word) : (s.setPc w).stack = s.stack := rfl
@[simp] theorem State.setPc_sp (w : Word) : (s.setPc w).sp = s.sp := rfl
@[simp] theorem State.setPc_mem (w : Word) : (s.setPc w).mem = s.mem := rfl
@[simp] theorem State.setPc_disp (w : Word) : (s.setPc w).disp = s.disp := rfl
@[simp] theorem State.setPc_key (w : Word) : (s.setPc w).key = s.key := rfl
@[simp] theorem State.setPc_mode (w : Word) : (s.setPc w).mode = s.mode := rfl
@[simp] theorem State.setPc_image (w : Word) : (s.setPc w).image = s.image := rfl
@[simp] theorem State.setPc_draws (w : Word) : (s.setPc w).draws = s.draws := rfl
@[simp] theorem State.reg_setPc (w : Word) (q : Reg) : (s.setPc w).reg q = s.reg q := rfl

/-! ### setDt -/

@[simp] theorem State.setDt_v (b : Byte) : (s.setDt b).v = s.v := rfl
@[simp] theorem State.setDt_i (b : Byte) : (s.setDt b).i = s.i := rfl
@[simp] theorem State.setDt_pc (b : Byte) : (s.setDt b).pc = s.pc := rfl
@[simp] theorem State.setDt_dt (b : Byte) : (s.setDt b).dt = b := rfl
@[simp] theorem State.setDt_st (b : Byte) : (s.setDt b).st = s.st := rfl
@[simp] theorem State.setDt_stack (b : Byte) : (s.setDt b).stack = s.stack := rfl
@[simp] theorem State.setDt_sp (b : Byte) : (s.setDt b).sp = s.sp := rfl
@[simp] theorem State.setDt_mem (b : Byte) : (s.setDt b).mem = s.mem := rfl
@[simp] theorem State.setDt_disp (b : Byte) : (s.setDt b).disp = s.disp := rfl
@[simp] theorem State.setDt_key (b : Byte) : (s.setDt b).key = s.key := rfl
@[simp] theorem State.setDt_mode (b : Byte) : (s.setDt b).mode = s.mode := rfl
@[simp] theorem State.setDt_image (b : Byte) : (s.setDt b).image = s.image := rfl
@[simp] theorem State.setDt_draws (b : Byte) : (s.setDt b).draws = s.draws := rfl
@[simp] theorem State.reg_setDt (b : Byte) (q : Reg) : (s.setDt b).reg q = s.reg q := rfl

/-! ### setSt -/

@[simp] theorem State.setSt_v (b : Byte) : (s.setSt b).v = s.v := rfl
@[simp] theorem State.setSt_i (b : Byte) : (s.setSt b).i = s.i := rfl
@[simp] theorem State.setSt_pc (b : Byte) : (s.setSt b).pc = s.pc := rfl
@[simp] theorem State.setSt_dt (b : Byte) : (s.setSt b).dt = s.dt := rfl
@[simp] theorem State.setSt_st (b : Byte) : (s.setSt b).st = b := rfl
@[simp] theorem State.setSt_stack (b : Byte) : (s.setSt b).stack = s.stack := rfl
@[simp] theorem State.setSt_sp (b : Byte) : (s.setSt b).sp = s.sp := rfl
@[simp] theorem State.setSt_mem (b : Byte) : (s.setSt b).mem = s.mem := rfl
@[simp] theorem State.setSt_disp (b : Byte) : (s.setSt b).disp = s.disp := rfl
@[simp] theorem State.setSt_key (b : Byte) : (s.setSt b).key = s.key := rfl
@[simp] theorem State.setSt_mode (b : Byte) : (s.setSt b).mode = s.mode := rfl
@[simp] theorem State.setSt_image (b : Byte) : (s.setSt b).image = s.image := rfl
@[simp] theorem State.setSt_draws (b : Byte) : (s.setSt b).draws = s.draws := rfl
@[simp] theorem State.reg_setSt (b : Byte) (q : Reg) : (s.setSt b).reg q = s.reg q := rfl

/-! ### setMem -/

@[simp] theorem State.setMem_v (m : Memory) : (s.setMem m).v = s.v := rfl
@[simp] theorem State.setMem_i (m : Memory) : (s.setMem m).i = s.i := rfl
@[simp] theorem State.setMem_pc (m : Memory) : (s.setMem m).pc = s.pc := rfl
@[simp] theorem State.setMem_dt (m : Memory) : (s.setMem m).dt = s.dt := rfl
@[simp] theorem State.setMem_st (m : Memory) : (s.setMem m).st = s.st := rfl
@[simp] theorem State.setMem_stack (m : Memory) : (s.setMem m).stack = s.stack := rfl
@[simp] theorem State.setMem_sp (m : Memory) : (s.setMem m).sp = s.sp := rfl
@[simp] theorem State.setMem_mem (m : Memory) : (s.setMem m).mem = m := rfl
@[simp] theorem State.setMem_disp (m : Memory) : (s.setMem m).disp = s.disp := rfl
@[simp] theorem State.setMem_key (m : Memory) : (s.setMem m).key = s.key := rfl
@[simp] theorem State.setMem_mode (m : Memory) : (s.setMem m).mode = s.mode := rfl
@[simp] theorem State.setMem_image (m : Memory) : (s.setMem m).image = s.image := rfl
@[simp] theorem State.setMem_draws (m : Memory) : (s.setMem m).draws = s.draws := rfl
@[simp] theorem State.reg_setMem (m : Memory) (q : Reg) : (s.setMem m).reg q = s.reg q := rfl

/-! ### setDisp -/

@[simp] theorem State.setDisp_v (g : Grid) : (s.setDisp g).v = s.v := rfl
@[simp] theorem State.setDisp_i (g : Grid) : (s.setDisp g).i = s.i := rfl
@[simp] theorem State.setDisp_pc (g : Grid) : (s.setDisp g).pc = s.pc := rfl
@[simp] theorem State.setDisp_dt (g : Grid) : (s.setDisp g).dt = s.dt := rfl
@[simp] theorem State.setDisp_st (g : Grid) : (s.setDisp g).st = s.st := rfl
@[simp] theorem State.setDisp_stack (g : Grid) : (s.setDisp g).stack = s.stack := rfl
@[simp] theorem State.setDisp_sp (g : Grid) : (s.setDisp g).sp = s.sp := rfl
@[simp] theorem State.setDisp_mem (g : Grid) : (s.setDisp g).mem = s.mem := rfl
@[simp] theorem State.setDisp_disp (g : Grid) : (s.setDisp g).disp = g := rfl
@[simp] theorem State.setDisp_key (g : Grid) : (s.setDisp g).key = s.key := rfl
@[simp] theorem State.setDisp_mode (g : Grid) : (s.setDisp g).mode = s.mode := rfl
@[simp] theorem State.setDisp_image (g : Grid) : (s.setDisp g).image = s.image := rfl
@[simp] theorem State.setDisp_draws (g : Grid) : (s.setDisp g).draws = s.draws := rfl
@[simp] theorem State.reg_setDisp (g : Grid) (q : Reg) : (s.setDisp g).reg q = s.reg q := rfl

/-! ### setKey -/

@[simp] theorem State.setKey_v (k : Fin 16) (b : Bool) : (s.setKey k b).v = s.v := rfl
@[simp] theorem State.setKey_i (k : Fin 16) (b : Bool) : (s.setKey k b).i = s.i := rfl
@[simp] theorem State.setKey_pc (k : Fin 16) (b : Bool) : (s.setKey k b).pc = s.pc := rfl
@[simp] theorem State.setKey_dt (k : Fin 16) (b : Bool) : (s.setKey k b).dt = s.dt := rfl
@[simp] theorem State.setKey_st (k : Fin 16) (b : Bool) : (s.setKey k b).st = s.st := rfl
@[simp] theorem State.setKey_stack (k : Fin 16) (b : Bool) : (s.setKey k b).stack = s.stack := rfl
@[simp] theorem State.setKey_sp (k : Fin 16) (b : Bool) : (s.setKey k b).sp = s.sp := rfl
@[simp] theorem State.setKey_mem (k : Fin 16) (b : Bool) : (s.setKey k b).mem = s.mem := rfl
@[simp] theorem State.setKey_disp (k : Fin 16) (b : Bool) : (s.setKey k b).disp = s.disp := rfl
@[simp] theorem State.setKey_key (k : Fin 16) (b : Bool) : (s.setKey k b).key = s.key.set k.val b := rfl
@[simp] theorem State.setKey_mode (k : Fin 16) (b : Bool) : (s.setKey k b).mode = s.mode := rfl
@[simp] theorem State.setKey_image (k : Fin 16) (b : Bool) : (s.setKey k b).image = s.image := rfl
@[simp] theorem State.setKey_draws (k : Fin 16) (b : Bool) : (s.setKey k b).draws = s.draws := rfl
@[simp] theorem State.reg_setKey (k : Fin 16) (b : Bool) (q : Reg) : (s.setKey k b).reg q = s.reg q := rfl

/-! ### setMode -/

@[simp] theorem State.setMode_v (m : Mode) : (s.setMode m).v = s.v := rfl
@[simp] theorem State.setMode_i (m : Mode) : (s.setMode m).i = s.i := rfl
@[simp] theorem State.setMode_pc (m : Mode) : (s.setMode m).pc = s.pc := rfl
@[simp] theorem State.setMode_dt (m : Mode) : (s.setMode m).dt = s.dt := rfl
@[simp] theorem State.setMode_st (m : Mode) : (s.setMode m).st = s.st := rfl
@[simp] theorem State.setMode_stack (m : Mode) : (s.setMode m).stack = s.stack := rfl
@[simp] theorem State.setMode_sp (m : Mode) : (s.setMode m).sp = s.sp := rfl
@[simp] theorem State.setMode_mem (m : Mode) : (s.setMode m).mem = s.mem := rfl
@[simp] theorem State.setMode_disp (m : Mode) : (s.setMode m).disp = s.disp := rfl
@[simp] theorem State.setMode_key (m : Mode) : (s.setMode m).key = s.key := rfl
@[simp] theorem State.setMode_mode (m : Mode) : (s.setMode m).mode = m := rfl
@[simp] theorem State.setMode_image (m : Mode) : (s.setMode m).image = s.image := rfl
@[simp] theorem State.setMode_draws (m : Mode) : (s.setMode m).draws = s.draws := rfl
@[simp] theorem State.reg_setMode (m : Mode) (q : Reg) : (s.setMode m).reg q = s.reg q := rfl

/-! ### advance -/

@[simp] theorem State.advance_v : (s.advance).v = s.v := rfl
@[simp] theorem State.advance_i : (s.advance).i = s.i := rfl
@[simp] theorem State.advance_pc : (s.advance).pc = s.pc + 2 := rfl
@[simp] theorem State.advance_dt : (s.advance).dt = s.dt := rfl
@[simp] theorem State.advance_st : (s.advance).st = s.st := rfl
@[simp] theorem State.advance_stack : (s.advance).stack = s.stack := rfl
@[simp] theorem State.advance_sp : (s.advance).sp = s.sp := rfl
@[simp] theorem State.advance_mem : (s.advance).mem = s.mem := rfl
@[simp] theorem State.advance_disp : (s.advance).disp = s.disp := rfl
@[simp] theorem State.advance_key : (s.advance).key = s.key := rfl
@[simp] theorem State.advance_mode : (s.advance).mode = s.mode := rfl
@[simp] theorem State.advance_image : (s.advance).image = s.image := rfl
@[simp] theorem State.advance_draws : (s.advance).draws = s.draws := rfl
@[simp] theorem State.reg_advance (q : Reg) : (s.advance).reg q = s.reg q := rfl

/-! ### setRegBlock -/

@[simp] theorem State.setRegBlock_v (bs : List Byte) : (s.setRegBlock bs).v = Vector.ofFn fun r : Fin 16 => bs.getD r.val (s.reg r) := rfl
@[simp] theorem State.setRegBlock_i (bs : List Byte) : (s.setRegBlock bs).i = s.i := rfl
@[simp] theorem State.setRegBlock_pc (bs : List Byte) : (s.setRegBlock bs).pc = s.pc := rfl
@[simp] theorem State.setRegBlock_dt (bs : List Byte) : (s.setRegBlock bs).dt = s.dt := rfl
@[simp] theorem State.setRegBlock_st (bs : List Byte) : (s.setRegBlock bs).st = s.st := rfl
@[simp] theorem State.setRegBlock_stack (bs : List Byte) : (s.setRegBlock bs).stack = s.stack := rfl
@[simp] theorem State.setRegBlock_sp (bs : List Byte) : (s.setRegBlock bs).sp = s.sp := rfl
@[simp] theorem State.setRegBlock_mem (bs : List Byte) : (s.setRegBlock bs).mem = s.mem := rfl
@[simp] theorem State.setRegBlock_disp (bs : List Byte) : (s.setRegBlock bs).disp = s.disp := rfl
@[simp] theorem State.setRegBlock_key (bs : List Byte) : (s.setRegBlock bs).key = s.key := rfl
@[simp] theorem State.setRegBlock_mode (bs : List Byte) : (s.setRegBlock bs).mode = s.mode := rfl
@[simp] theorem State.setRegBlock_image (bs : List Byte) : (s.setRegBlock bs).image = s.image := rfl
@[simp] theorem State.setRegBlock_draws (bs : List Byte) : (s.setRegBlock bs).draws = s.draws := rfl

/-! ### Registers and latches read back -/

@[simp] theorem State.reg_setReg (r : Reg) (b : Byte) (q : Reg) :
    (s.setReg r b).reg q = if q = r then b else s.reg q := by
  simp only [State.reg, State.setReg, Vector.getElem_set]
  split <;> split <;> simp_all [Fin.ext_iff]

@[simp] theorem State.reg_setRegBlock (bs : List Byte) (q : Reg) :
    (s.setRegBlock bs).reg q = bs.getD q.val (s.reg q) := by
  simp [State.reg, State.setRegBlock]

@[simp] theorem State.key_setKey (k : Fin 16) (b : Bool) (j : Fin 16) :
    (s.setKey k b).key[j.val] = if j = k then b else s.key[j.val] := by
  simp only [State.setKey, Vector.getElem_set]
  split <;> split <;> simp_all [Fin.ext_iff]

/-- Writing a register twice keeps the last value. -/
theorem State.setReg_setReg (r : Reg) (a b : Byte) : (s.setReg r a).setReg r b = s.setReg r b := by
  simp [State.setReg]

/-! ### Result and flag (42_alu.md R87) -/

@[simp] theorem State.reg_setResultFlag (x : Reg) (a f : Byte) (q : Reg) :
    (s.setResultFlag x a f).reg q = if q = vf then f else if q = x then a else s.reg q := by
  simp [State.setResultFlag]

@[simp] theorem State.setResultFlag_i (x : Reg) (a f : Byte) : (s.setResultFlag x a f).i = s.i := rfl
@[simp] theorem State.setResultFlag_pc (x : Reg) (a f : Byte) : (s.setResultFlag x a f).pc = s.pc := rfl
@[simp] theorem State.setResultFlag_dt (x : Reg) (a f : Byte) : (s.setResultFlag x a f).dt = s.dt := rfl
@[simp] theorem State.setResultFlag_st (x : Reg) (a f : Byte) : (s.setResultFlag x a f).st = s.st := rfl
@[simp] theorem State.setResultFlag_stack (x : Reg) (a f : Byte) : (s.setResultFlag x a f).stack = s.stack := rfl
@[simp] theorem State.setResultFlag_sp (x : Reg) (a f : Byte) : (s.setResultFlag x a f).sp = s.sp := rfl
@[simp] theorem State.setResultFlag_mem (x : Reg) (a f : Byte) : (s.setResultFlag x a f).mem = s.mem := rfl
@[simp] theorem State.setResultFlag_disp (x : Reg) (a f : Byte) : (s.setResultFlag x a f).disp = s.disp := rfl
@[simp] theorem State.setResultFlag_key (x : Reg) (a f : Byte) : (s.setResultFlag x a f).key = s.key := rfl
@[simp] theorem State.setResultFlag_mode (x : Reg) (a f : Byte) : (s.setResultFlag x a f).mode = s.mode := rfl
@[simp] theorem State.setResultFlag_image (x : Reg) (a f : Byte) : (s.setResultFlag x a f).image = s.image := rfl
@[simp] theorem State.setResultFlag_draws (x : Reg) (a f : Byte) : (s.setResultFlag x a f).draws = s.draws := rfl

/-! ### The advance with a skip (41_control.md R77) -/

@[simp] theorem State.advanceSkip_pc (b : Bool) : (s.advanceSkip b).pc = if b then s.pc + 4 else s.pc + 2 := by
  cases b <;> simp [State.advanceSkip, BitVec.add_assoc]

@[simp] theorem State.reg_advanceSkip (b : Bool) (q : Reg) : (s.advanceSkip b).reg q = s.reg q := by cases b <;> rfl
@[simp] theorem State.advanceSkip_v (b : Bool) : (s.advanceSkip b).v = s.v := by cases b <;> rfl
@[simp] theorem State.advanceSkip_i (b : Bool) : (s.advanceSkip b).i = s.i := by cases b <;> rfl
@[simp] theorem State.advanceSkip_dt (b : Bool) : (s.advanceSkip b).dt = s.dt := by cases b <;> rfl
@[simp] theorem State.advanceSkip_st (b : Bool) : (s.advanceSkip b).st = s.st := by cases b <;> rfl
@[simp] theorem State.advanceSkip_stack (b : Bool) : (s.advanceSkip b).stack = s.stack := by cases b <;> rfl
@[simp] theorem State.advanceSkip_sp (b : Bool) : (s.advanceSkip b).sp = s.sp := by cases b <;> rfl
@[simp] theorem State.advanceSkip_mem (b : Bool) : (s.advanceSkip b).mem = s.mem := by cases b <;> rfl
@[simp] theorem State.advanceSkip_disp (b : Bool) : (s.advanceSkip b).disp = s.disp := by cases b <;> rfl
@[simp] theorem State.advanceSkip_key (b : Bool) : (s.advanceSkip b).key = s.key := by cases b <;> rfl
@[simp] theorem State.advanceSkip_mode (b : Bool) : (s.advanceSkip b).mode = s.mode := by cases b <;> rfl
@[simp] theorem State.advanceSkip_image (b : Bool) : (s.advanceSkip b).image = s.image := by cases b <;> rfl
@[simp] theorem State.advanceSkip_draws (b : Bool) : (s.advanceSkip b).draws = s.draws := by cases b <;> rfl

/-! ### Taking a fault (60_exceptions.md R129): the mode and nothing else -/

@[simp] theorem takeFault_mode (u : Option Word) (c : FaultKind) (d : FaultInfo) :
    (takeFault s u c d).mode = .faulted { cause := c, code := causeCode c, pc := s.pc, word := u, info := d } := rfl
@[simp] theorem reg_takeFault (u : Option Word) (c : FaultKind) (d : FaultInfo) (q : Reg) :
    (takeFault s u c d).reg q = s.reg q := rfl
@[simp] theorem takeFault_v (u : Option Word) (c : FaultKind) (d : FaultInfo) : (takeFault s u c d).v = s.v := rfl
@[simp] theorem takeFault_i (u : Option Word) (c : FaultKind) (d : FaultInfo) : (takeFault s u c d).i = s.i := rfl
@[simp] theorem takeFault_pc (u : Option Word) (c : FaultKind) (d : FaultInfo) : (takeFault s u c d).pc = s.pc := rfl
@[simp] theorem takeFault_dt (u : Option Word) (c : FaultKind) (d : FaultInfo) : (takeFault s u c d).dt = s.dt := rfl
@[simp] theorem takeFault_st (u : Option Word) (c : FaultKind) (d : FaultInfo) : (takeFault s u c d).st = s.st := rfl
@[simp] theorem takeFault_stack (u : Option Word) (c : FaultKind) (d : FaultInfo) : (takeFault s u c d).stack = s.stack := rfl
@[simp] theorem takeFault_sp (u : Option Word) (c : FaultKind) (d : FaultInfo) : (takeFault s u c d).sp = s.sp := rfl
@[simp] theorem takeFault_mem (u : Option Word) (c : FaultKind) (d : FaultInfo) : (takeFault s u c d).mem = s.mem := rfl
@[simp] theorem takeFault_disp (u : Option Word) (c : FaultKind) (d : FaultInfo) : (takeFault s u c d).disp = s.disp := rfl
@[simp] theorem takeFault_key (u : Option Word) (c : FaultKind) (d : FaultInfo) : (takeFault s u c d).key = s.key := rfl
@[simp] theorem takeFault_image (u : Option Word) (c : FaultKind) (d : FaultInfo) : (takeFault s u c d).image = s.image := rfl
@[simp] theorem takeFault_draws (u : Option Word) (c : FaultKind) (d : FaultInfo) : (takeFault s u c d).draws = s.draws := rfl

/-! ### Reading and clearing a latch, drawing, ticking -/

@[simp] theorem readClear_value (k : Fin 16) : (readClear s k).1 = s.key[k.val] := rfl
@[simp] theorem readClear_state (k : Fin 16) : (readClear s k).2 = s.setKey k false := rfl
@[simp] theorem drawByte_value : (drawByte s).1 = Config.freeByte s.draws := rfl
@[simp] theorem drawByte_state : (drawByte s).2 = { s with draws := s.draws + 1 } := rfl
@[simp] theorem frequencyStep_eq : frequencyStep s = (s.setDt (tickDown s.dt)).setSt (tickDown s.st) := rfl

end Sys2Proof.Machine
end

