-- ==== Sys2Proof/Laws/Ops.lean ====
section
/-! SUPPORT. One lemma per shared operation, saying once everything it can answer; proofs cite these and do not unfold the
operation. -/

namespace Sys2Proof.Machine

/-! ### Stack (10_state.md R24) -/

/-- All that Push can answer. -/
theorem push_cases (s : State) (a : Word) :
    (∃ h : s.sp.toNat < 16, push s a = .ok { s with stack := s.stack.set s.sp.toNat a, sp := s.sp + 1 }) ∨
    s.sp = 16 ∧ push s a = .error (.raised .stackOverflow (.pointer 16)) ∨
    16 < s.sp.toNat ∧ push s a = .error (.stopped (.stackPointerIllegal s.sp)) := by
  by_cases h16 : s.sp = 16
  · exact .inr (.inl ⟨h16, by simp [push, h16]⟩)
  · by_cases hlt : s.sp.toNat < 16
    · exact .inl ⟨hlt, by simp only [push, if_neg h16, dif_pos hlt]⟩
    · have hne : s.sp.toNat ≠ 16 := fun h => h16 (BitVec.eq_of_toNat_eq h)
      exact .inr (.inr ⟨by omega, by simp only [push, if_neg h16, dif_neg hlt]⟩)

/-- All that Pop can answer. -/
theorem pop_cases (s : State) :
    (∃ h : (s.sp - 1).toNat < 16, s.sp ≠ 0 ∧ s.sp.toNat = (s.sp - 1).toNat + 1 ∧
      pop s = .ok (s.stack[(s.sp - 1).toNat], { s with sp := s.sp - 1 })) ∨
    s.sp = 0 ∧ pop s = .error (.raised .stackUnderflow (.pointer 0)) ∨
    16 < s.sp.toNat ∧ pop s = .error (.stopped (.stackPointerIllegal s.sp)) := by
  by_cases h0 : s.sp = 0
  · exact .inr (.inl ⟨h0, by simp [pop, h0]⟩)
  · have hne : s.sp.toNat ≠ 0 := fun h => h0 (BitVec.eq_of_toNat_eq h)
    have hlt := s.sp.isLt
    have hsub : (s.sp - 1).toNat + 1 = s.sp.toNat := by
      rw [BitVec.toNat_sub, show (1 : Byte).toNat = 1 from rfl]
      omega
    by_cases h : (s.sp - 1).toNat < 16
    · exact .inl ⟨h, h0, hsub.symm, by simp only [pop, if_neg h0, dif_pos h]⟩
    · exact .inr (.inr ⟨by omega, by simp only [pop, if_neg h0, dif_neg h]⟩)

/-! ### Ending an instruction (00_scope.md R11) -/

/-- If a concluded instruction answers a next state, it completed there or took a fault from the step's start. -/
theorem conclude_next {s t : State} {i : Instr} {r : Except Abort State} (h : conclude s i r = .next t) :
    r = .ok t ∨ ∃ c d, r = .error (.raised c d) ∧ t = takeFault s (some (encode i)) c d := by
  match r with
  | .ok u => exact .inl (by simpa [conclude] using h)
  | .error (.raised c d) => exact .inr ⟨c, d, rfl, by simpa [conclude] using h.symm⟩
  | .error (.stopped f) => simp [conclude] at h

@[simp] theorem conclude_ok (s t : State) (i : Instr) : conclude s i (.ok t) = .next t := rfl

@[simp] theorem conclude_raised (s : State) (i : Instr) (c : FaultKind) (d : FaultInfo) :
    conclude s i (.error (.raised c d)) = .next (takeFault s (some (encode i)) c d) := rfl

@[simp] theorem conclude_stopped (s : State) (i : Instr) (f : Fault) :
    conclude s i (.error (.stopped f)) = .fault f := rfl

/-! ### Keys -/

/-- All that naming a key by a register's value can answer (45_keys_timers.md R117). -/
theorem keyNamed_cases (b : Byte) :
    (∃ h : b.toNat < 16, keyNamed b = .ok ⟨b.toNat, h⟩) ∨
    15 < b.toNat ∧ keyNamed b = .error (.raised .keyIndexOutOfRange (.key b)) := by
  by_cases h : b.toNat < 16
  · exact .inl ⟨h, by simp [keyNamed, h]⟩
  · exact .inr ⟨by omega, by simp [keyNamed, h]⟩

/-- A key found by the scan is latched, and no lower key is (40_cycle.md R69). -/
theorem lowestLatched_eq_some {keys : Vector Bool 16} {k : Fin 16} :
    lowestLatched keys = some k ↔ keys[k.val] = true ∧ ∀ j : Fin 16, j < k → keys[j.val] = false := by
  simp only [lowestLatched, List.find?_eq_some_iff_getElem, List.getElem_finRange, Bool.not_eq_eq_eq_not, Bool.not_true,
    List.length_finRange]
  refine and_congr_right fun _ => ⟨fun ⟨i, hi, he, hall⟩ j hj => ?_, fun hall => ⟨k.val, k.isLt, Fin.ext rfl, fun j hj => ?_⟩⟩
  · obtain rfl : k = ⟨i, hi⟩ := by rw [← he]; rfl
    simpa using hall j.val hj
  · exact hall ⟨j, by omega⟩ hj

theorem lowestLatched_eq_none {keys : Vector Bool 16} :
    lowestLatched keys = none ↔ ∀ j : Fin 16, keys[j.val] = false := by
  simp [lowestLatched]

/-- All that a poll can do (40_cycle.md R69). -/
theorem pollKeys_cases (x : Reg) (s : State) :
    (∃ k : Fin 16, s.key[k.val] = true ∧ (∀ j : Fin 16, j < k → s.key[j.val] = false) ∧
      pollKeys x s = ((s.setKey k false).setReg x (BitVec.ofNat 8 k.val)).setMode .run) ∨
    (∀ j : Fin 16, s.key[j.val] = false) ∧ pollKeys x s = s := by
  cases h : lowestLatched s.key with
  | some k =>
    obtain ⟨hk, hlow⟩ := lowestLatched_eq_some.mp h
    exact .inl ⟨k, hk, hlow, by simp [pollKeys, h]⟩
  | none => exact .inr ⟨lowestLatched_eq_none.mp h, by simp [pollKeys, h]⟩

/-! ### Operands and flags -/

@[simp] theorem zext16_toNat (b : Byte) : (zext16 b).toNat = b.toNat := by
  have := b.isLt
  simp only [zext16, BitVec.toNat_setWidth]
  omega

@[simp] theorem length_regBlock (s : State) (x : Reg) : (s.regBlock x).length = x.val + 1 := by
  have := x.isLt
  simp only [State.regBlock, List.length_take, Vector.length_toList]
  omega

/-- Byte `k` of a register block. -/
theorem getElem_regBlock (s : State) (x r : Reg) (h : r ≤ x) :
    (s.regBlock x)[r.val]'(by rw [length_regBlock]; exact Nat.lt_succ_of_le h) = s.reg r := by
  simp [State.regBlock, State.reg]

@[simp] theorem length_decimalDigits (b : Byte) : (decimalDigits b).length = 3 := rfl

@[simp] theorem bool2u8_toNat (b : Bool) : (bool2u8 b).toNat = b.toNat := by cases b <;> rfl

/-! ### Ticks -/

theorem tickDown_toNat (t : Byte) : (tickDown t).toNat = t.toNat - 1 := by
  have := t.isLt
  by_cases h : t.toNat > 0
  · rw [tickDown, if_pos h, BitVec.toNat_sub, show (1 : Byte).toNat = 1 from rfl]
    omega
  · simp only [tickDown, if_neg h]
    omega

end Sys2Proof.Machine
end

