-- ==== Sys2Proof/Laws/Exec.lean ====
section
/-! SUPPORT. All that each instruction with a fault condition can answer, said once (60_exceptions.md R130: each has at most
one). Every other instruction answers one next state, by definition. -/

namespace Sys2Proof.Machine

/-- 2nnn: pushed and jumped, or the stack was full, or SP was no legal value. -/
theorem execCall_cases (nnn : Word) (s : State) :
    (∃ h : s.sp.toNat < 16, execCall nnn s =
      .next { s with stack := s.stack.set s.sp.toNat (s.pc + 2), sp := s.sp + 1, pc := nnn }) ∨
    s.sp = 16 ∧ execCall nnn s = .next (takeFault s (some (encode (.call nnn))) .stackOverflow (.pointer 16)) ∨
    16 < s.sp.toNat ∧ execCall nnn s = .fault (.stackPointerIllegal s.sp) := by
  rcases push_cases s.advance s.advance.pc with ⟨h, hp⟩ | ⟨h, hp⟩ | ⟨h, hp⟩
  · exact .inl ⟨h, by rw [execCall, hp]; rfl⟩
  · exact .inr (.inl ⟨h, by rw [execCall, hp]; rfl⟩)
  · exact .inr (.inr ⟨h, by rw [execCall, hp]; rfl⟩)

/-- 00EE: popped into PC, or the stack was empty, or SP was no legal value. -/
theorem execRet_cases (s : State) :
    (∃ j : Fin 16, s.sp.toNat = j.val + 1 ∧ (s.sp - 1).toNat = j.val ∧
      execRet s = .next { s with sp := s.sp - 1, pc := s.stack[j.val] }) ∨
    s.sp = 0 ∧ execRet s = .next (takeFault s (some (encode .ret)) .stackUnderflow (.pointer 0)) ∨
    16 < s.sp.toNat ∧ execRet s = .fault (.stackPointerIllegal s.sp) := by
  rcases pop_cases s.advance with ⟨h, _, hsp, hp⟩ | ⟨h, hp⟩ | ⟨h, hp⟩
  · exact .inl ⟨⟨(s.sp - 1).toNat, h⟩, hsp, rfl, by rw [execRet, hp]; rfl⟩
  · exact .inr (.inl ⟨h, by rw [execRet, hp]; rfl⟩)
  · exact .inr (.inr ⟨h, by rw [execRet, hp]; rfl⟩)

/-- Ex9E: the key read and cleared, or the value names no key. -/
theorem execSkp_cases (x : Reg) (s : State) :
    (∃ h : (s.reg x).toNat < 16, execSkp x s =
      .next ((s.setKey ⟨(s.reg x).toNat, h⟩ false).advanceSkip s.key[(s.reg x).toNat])) ∨
    15 < (s.reg x).toNat ∧ execSkp x s =
      .next (takeFault s (some (encode (.skp x))) .keyIndexOutOfRange (.key (s.reg x))) := by
  rcases keyNamed_cases (s.reg x) with ⟨h, hk⟩ | ⟨h, hk⟩
  · exact .inl ⟨h, by rw [execSkp, hk]; rfl⟩
  · exact .inr ⟨h, by rw [execSkp, hk]; rfl⟩

/-- ExA1: the key read and cleared, or the value names no key. -/
theorem execSknp_cases (x : Reg) (s : State) :
    (∃ h : (s.reg x).toNat < 16, execSknp x s =
      .next ((s.setKey ⟨(s.reg x).toNat, h⟩ false).advanceSkip (!s.key[(s.reg x).toNat]))) ∨
    15 < (s.reg x).toNat ∧ execSknp x s =
      .next (takeFault s (some (encode (.sknp x))) .keyIndexOutOfRange (.key (s.reg x))) := by
  rcases keyNamed_cases (s.reg x) with ⟨h, hk⟩ | ⟨h, hk⟩
  · exact .inl ⟨h, by rw [execSknp, hk]; rfl⟩
  · exact .inr ⟨h, by rw [execSknp, hk]; rfl⟩

/-- 8xy7 at either value of the parameter: the fault, only where the parameter asks for it, or the result and the flag. -/
theorem reverseSubtract_cases (faults : Bool) (x y : Reg) (s : State) :
    (faults = true ∧ (s.reg y).toNat < (s.reg x).toNat ∧ conclude s (.subn x y) (reverseSubtract faults x y s) =
      .next (takeFault s (some (encode (.subn x y))) .arithmeticUnderflow (.operands (s.reg x) (s.reg y)))) ∨
    conclude s (.subn x y) (reverseSubtract faults x y s) =
      .next (s.advance.setResultFlag x (s.reg y - s.reg x) (greaterFlag (s.reg y) (s.reg x))) := by
  unfold reverseSubtract
  split
  · rename_i h
    exact .inl ⟨h.1, h.2, rfl⟩
  · exact .inr rfl

/-- 8xy7 at the parameter's default. -/
theorem execSubn_cases (x y : Reg) (s : State) :
    (rsubUnderflowFaults = true ∧ (s.reg y).toNat < (s.reg x).toNat ∧ execSubn x y s =
      .next (takeFault s (some (encode (.subn x y))) .arithmeticUnderflow (.operands (s.reg x) (s.reg y)))) ∨
    execSubn x y s =
      .next (s.advance.setResultFlag x (s.reg y - s.reg x) (greaterFlag (s.reg y) (s.reg x))) :=
  reverseSubtract_cases rsubUnderflowFaults x y s

/-- Fx33: the digits stored, or an address out of range. -/
theorem execLdBVx_cases (x : Reg) (s : State) :
    s.i.toNat + 3 ≤ 4096 ∧ execLdBVx x s =
      .next (s.advance.setMem (s.mem.writeBytes s.i.toNat (decimalDigits (s.reg x)))) ∨
    4096 < s.i.toNat + 3 ∧ execLdBVx x s =
      .next (takeFault s (some (encode (.ldBVx x))) .addressOutOfRange (.address (max s.i.toNat 4096))) := by
  rcases storeBytes_cases s.mem s.blockBase (decimalDigits (s.reg x)) with ⟨h, he⟩ | ⟨_, h, he⟩
  · exact .inl ⟨by simpa [State.blockBase] using h, by rw [execLdBVx, he]; rfl⟩
  · exact .inr ⟨by simpa [State.blockBase] using h, by rw [execLdBVx, he]; rfl⟩

/-- Fx55: the registers stored, or an address out of range. -/
theorem execLdMemVx_cases (x : Reg) (s : State) :
    s.i.toNat + x.val + 1 ≤ 4096 ∧ execLdMemVx x s =
      .next (s.advance.setMem (s.mem.writeBytes s.i.toNat (s.regBlock x))) ∨
    4096 < s.i.toNat + x.val + 1 ∧ execLdMemVx x s =
      .next (takeFault s (some (encode (.ldMemVx x))) .addressOutOfRange (.address (max s.i.toNat 4096))) := by
  rcases storeBytes_cases s.mem s.blockBase (s.regBlock x) with ⟨h, he⟩ | ⟨_, h, he⟩
  · exact .inl ⟨by simpa [State.blockBase, ← Nat.add_assoc] using h, by rw [execLdMemVx, he]; rfl⟩
  · exact .inr ⟨by simpa [State.blockBase, ← Nat.add_assoc] using h, by rw [execLdMemVx, he]; rfl⟩

/-- Fx65: the registers loaded, or an address out of range. -/
theorem execLdVxMem_cases (x : Reg) (s : State) :
    s.i.toNat + x.val + 1 ≤ 4096 ∧ execLdVxMem x s =
      .next (s.advance.setRegBlock (s.mem.readBytes s.i.toNat (x.val + 1))) ∨
    4096 < s.i.toNat + x.val + 1 ∧ execLdVxMem x s =
      .next (takeFault s (some (encode (.ldVxMem x))) .addressOutOfRange (.address (max s.i.toNat 4096))) := by
  rcases loadBytes_cases s.mem s.blockBase (x.val + 1) with ⟨h, he⟩ | ⟨_, h, he⟩
  · exact .inl ⟨by simpa [State.blockBase, ← Nat.add_assoc] using h, by rw [execLdVxMem, he]; rfl⟩
  · exact .inr ⟨by simpa [State.blockBase, ← Nat.add_assoc] using h, by rw [execLdVxMem, he]; rfl⟩

/-- Dxyn: the sprite drawn and VF written, or an address out of range. -/
theorem execDrw_cases (x y : Reg) (n : Nat) (s : State) :
    (n = 0 ∨ s.i.toNat + n ≤ 4096) ∧ (∃ drawn, drawn = displayDraw s.disp (s.reg x) (s.reg y) (s.mem.readBytes s.i.toNat n) ∧
      execDrw x y n s = .next ((s.advance.setDisp drawn.1).setReg vf (bool2u8 drawn.2))) ∨
    0 < n ∧ 4096 < s.i.toNat + n ∧ execDrw x y n s =
      .next (takeFault s (some (encode (.drw x y n))) .addressOutOfRange (.address (max s.i.toNat 4096))) := by
  rcases loadBytes_cases s.mem s.blockBase n with ⟨h, he⟩ | ⟨h0, h, he⟩
  · exact .inl ⟨h, _, rfl, by rw [execDrw, he]; rfl⟩
  · exact .inr ⟨h0, h, by rw [execDrw, he]; rfl⟩

end Sys2Proof.Machine
end

