-- ==== Sys2Proof/Laws/PerInstr.lean ====
section
/-! SUPPORT. Statements about every instruction as syntax, one lemma per constructor. Family TableRow: the encoded word of an
instruction, whatever its operands, matches its kind's row of the opcode table. -/

namespace Sys2Proof.Laws

/-- The word matches the row: masked, it is the row's value. -/
def TableRow.Matches (w : Word) (row : InstrKind × Word × Word) : Prop := w &&& row.2.1 = row.2.2

/-- `encode i` matches the row of spec/opcode_table.json for the kind of `i`. -/
def TableRow.Statement (i : Instr) : Prop :=
  ∃ row ∈ opcodeTable, row.1 = i.kind ∧ TableRow.Matches (encode i) row

/-- To match a row it is enough that the row is listed and the masked word's number is the row's. -/
theorem TableRow.of_toNat {i : Instr} (row : InstrKind × Word × Word) (hrow : row ∈ opcodeTable) (hk : row.1 = i.kind)
    (hm : (encode i &&& row.2.1).toNat = row.2.2.toNat) : TableRow.Statement i :=
  ⟨row, hrow, hk, BitVec.eq_of_toNat_eq hm⟩

theorem TableRow.cls : TableRow.Statement (.cls) :=
  TableRow.of_toNat (.cls, 0xFFFF, 0x00E0) (by decide) rfl (rfl)

theorem TableRow.ret : TableRow.Statement (.ret) :=
  TableRow.of_toNat (.ret, 0xFFFF, 0x00EE) (by decide) rfl (rfl)

theorem TableRow.jp (nnn : Word) : TableRow.Statement (.jp nnn) :=
  TableRow.of_toNat (.jp, 0xF000, 0x1000) (by decide) rfl (formatNNN_row (by decide) nnn)

theorem TableRow.call (nnn : Word) : TableRow.Statement (.call nnn) :=
  TableRow.of_toNat (.call, 0xF000, 0x2000) (by decide) rfl (formatNNN_row (by decide) nnn)

theorem TableRow.seImm (x : Reg) (kk : Byte) : TableRow.Statement (.seImm x kk) :=
  TableRow.of_toNat (.seImm, 0xF000, 0x3000) (by decide) rfl (formatXKK_row (by decide) x kk)

theorem TableRow.sneImm (x : Reg) (kk : Byte) : TableRow.Statement (.sneImm x kk) :=
  TableRow.of_toNat (.sneImm, 0xF000, 0x4000) (by decide) rfl (formatXKK_row (by decide) x kk)

theorem TableRow.seReg (x y : Reg) : TableRow.Statement (.seReg x y) :=
  TableRow.of_toNat (.seReg, 0xF00F, 0x5000) (by decide) rfl (formatXYS_row (by decide) x y (by decide))

theorem TableRow.ldImm (x : Reg) (kk : Byte) : TableRow.Statement (.ldImm x kk) :=
  TableRow.of_toNat (.ldImm, 0xF000, 0x6000) (by decide) rfl (formatXKK_row (by decide) x kk)

theorem TableRow.addImm (x : Reg) (kk : Byte) : TableRow.Statement (.addImm x kk) :=
  TableRow.of_toNat (.addImm, 0xF000, 0x7000) (by decide) rfl (formatXKK_row (by decide) x kk)

theorem TableRow.ldReg (x y : Reg) : TableRow.Statement (.ldReg x y) :=
  TableRow.of_toNat (.ldReg, 0xF00F, 0x8000) (by decide) rfl (formatXYS_row (by decide) x y (by decide))

theorem TableRow.orReg (x y : Reg) : TableRow.Statement (.orReg x y) :=
  TableRow.of_toNat (.orReg, 0xF00F, 0x8001) (by decide) rfl (formatXYS_row (by decide) x y (by decide))

theorem TableRow.andReg (x y : Reg) : TableRow.Statement (.andReg x y) :=
  TableRow.of_toNat (.andReg, 0xF00F, 0x8002) (by decide) rfl (formatXYS_row (by decide) x y (by decide))

theorem TableRow.xorReg (x y : Reg) : TableRow.Statement (.xorReg x y) :=
  TableRow.of_toNat (.xorReg, 0xF00F, 0x8003) (by decide) rfl (formatXYS_row (by decide) x y (by decide))

theorem TableRow.addReg (x y : Reg) : TableRow.Statement (.addReg x y) :=
  TableRow.of_toNat (.addReg, 0xF00F, 0x8004) (by decide) rfl (formatXYS_row (by decide) x y (by decide))

theorem TableRow.subReg (x y : Reg) : TableRow.Statement (.subReg x y) :=
  TableRow.of_toNat (.subReg, 0xF00F, 0x8005) (by decide) rfl (formatXYS_row (by decide) x y (by decide))

theorem TableRow.shr (x y : Reg) : TableRow.Statement (.shr x y) :=
  TableRow.of_toNat (.shr, 0xF00F, 0x8006) (by decide) rfl (formatXYS_row (by decide) x y (by decide))

theorem TableRow.subn (x y : Reg) : TableRow.Statement (.subn x y) :=
  TableRow.of_toNat (.subn, 0xF00F, 0x8007) (by decide) rfl (formatXYS_row (by decide) x y (by decide))

theorem TableRow.shl (x y : Reg) : TableRow.Statement (.shl x y) :=
  TableRow.of_toNat (.shl, 0xF00F, 0x800E) (by decide) rfl (formatXYS_row (by decide) x y (by decide))

theorem TableRow.sneReg (x y : Reg) : TableRow.Statement (.sneReg x y) :=
  TableRow.of_toNat (.sneReg, 0xF00F, 0x9000) (by decide) rfl (formatXYS_row (by decide) x y (by decide))

theorem TableRow.ldI (nnn : Word) : TableRow.Statement (.ldI nnn) :=
  TableRow.of_toNat (.ldI, 0xF000, 0xA000) (by decide) rfl (formatNNN_row (by decide) nnn)

theorem TableRow.jpV0 (nnn : Word) : TableRow.Statement (.jpV0 nnn) :=
  TableRow.of_toNat (.jpV0, 0xF000, 0xB000) (by decide) rfl (formatNNN_row (by decide) nnn)

theorem TableRow.rnd (x : Reg) (kk : Byte) : TableRow.Statement (.rnd x kk) :=
  TableRow.of_toNat (.rnd, 0xF000, 0xC000) (by decide) rfl (formatXKK_row (by decide) x kk)

theorem TableRow.drw (x y : Reg) (n : Nat) : TableRow.Statement (.drw x y n) :=
  TableRow.of_toNat (.drw, 0xF000, 0xD000) (by decide) rfl (formatXYN_row (by decide) x y n)

theorem TableRow.skp (x : Reg) : TableRow.Statement (.skp x) :=
  TableRow.of_toNat (.skp, 0xF0FF, 0xE09E) (by decide) rfl (formatXS_row (by decide) x _)

theorem TableRow.sknp (x : Reg) : TableRow.Statement (.sknp x) :=
  TableRow.of_toNat (.sknp, 0xF0FF, 0xE0A1) (by decide) rfl (formatXS_row (by decide) x _)

theorem TableRow.ldVxDt (x : Reg) : TableRow.Statement (.ldVxDt x) :=
  TableRow.of_toNat (.ldVxDt, 0xF0FF, 0xF007) (by decide) rfl (formatXS_row (by decide) x _)

theorem TableRow.ldVxK (x : Reg) : TableRow.Statement (.ldVxK x) :=
  TableRow.of_toNat (.ldVxK, 0xF0FF, 0xF00A) (by decide) rfl (formatXS_row (by decide) x _)

theorem TableRow.ldDtVx (x : Reg) : TableRow.Statement (.ldDtVx x) :=
  TableRow.of_toNat (.ldDtVx, 0xF0FF, 0xF015) (by decide) rfl (formatXS_row (by decide) x _)

theorem TableRow.ldStVx (x : Reg) : TableRow.Statement (.ldStVx x) :=
  TableRow.of_toNat (.ldStVx, 0xF0FF, 0xF018) (by decide) rfl (formatXS_row (by decide) x _)

theorem TableRow.addIVx (x : Reg) : TableRow.Statement (.addIVx x) :=
  TableRow.of_toNat (.addIVx, 0xF0FF, 0xF01E) (by decide) rfl (formatXS_row (by decide) x _)

theorem TableRow.ldFVx (x : Reg) : TableRow.Statement (.ldFVx x) :=
  TableRow.of_toNat (.ldFVx, 0xF0FF, 0xF029) (by decide) rfl (formatXS_row (by decide) x _)

theorem TableRow.ldBVx (x : Reg) : TableRow.Statement (.ldBVx x) :=
  TableRow.of_toNat (.ldBVx, 0xF0FF, 0xF033) (by decide) rfl (formatXS_row (by decide) x _)

theorem TableRow.ldMemVx (x : Reg) : TableRow.Statement (.ldMemVx x) :=
  TableRow.of_toNat (.ldMemVx, 0xF0FF, 0xF055) (by decide) rfl (formatXS_row (by decide) x _)

theorem TableRow.ldVxMem (x : Reg) : TableRow.Statement (.ldVxMem x) :=
  TableRow.of_toNat (.ldVxMem, 0xF0FF, 0xF065) (by decide) rfl (formatXS_row (by decide) x _)

end Sys2Proof.Laws
end

