-- ==== Sys2Proof/Laws/Step.lean ====
section
/-! SUPPORT. What a step can do, said once (40_cycle.md R64, R65): every proof about `step` splits on these cases. -/

namespace Sys2Proof.Machine

/-- With the default parameters `execWith` is `exec`. -/
@[simp] theorem execWith_default (i : Instr) (s : State) : execWith Parameters.default i s = exec i s := by
  cases i <;> rfl

/-- The parameters matter to 8xy7 alone. -/
theorem execWith_of_ne_subn {p : Parameters} {i : Instr} {s : State} (h : ∀ x y, i ≠ .subn x y) :
    execWith p i s = exec i s := by
  cases i <;> first | rfl | exact absurd rfl (h _ _)

/-- The step of a run, whose fetch is in range, on a word of a known shape. -/
theorem instructionStep_run {s : State} {i : Instr} {p : Parameters} (h : s.AboutToRun i) :
    instructionStep s p = reportExec i (execWith p i s) := by
  simp only [instructionStep, h.mode, runStep, fetchWord_inRange h.fetchable]
  rw [show decode (bigEndian (s.mem.read s.pc.toNat) (s.mem.read (s.pc.toNat + 1))) = .instr i from h.decodes]

/-- Leaving the report out undoes pairing it. -/
theorem dropReport_reportExec (i : Instr) (o : Host.Outcome State Fault Refusal) :
    dropReport (reportExec i o) = o := by
  cases o <;> rfl

/-- All that a step can be, for any parameters (40_cycle.md R64, R65; 60_exceptions.md R130): an instruction, a fetch fault, an
invalid word, a poll, or nothing. -/
theorem stepWith_cases (p : Parameters) (s : State) :
    (∃ i, s.AboutToRun i ∧ stepWith p s = execWith p i s) ∨
    (s.mode = .run ∧ ¬s.pc.toNat + 2 ≤ 4096 ∧
      stepWith p s = .next (takeFault s none .addressOutOfRange (.address (max s.pc.toNat 4096)))) ∨
    (s.mode = .run ∧ s.pc.toNat + 2 ≤ 4096 ∧ ∃ w, decode s.wordAtPc = .invalid w ∧
      stepWith p s = .next (takeFault s (some w) .illegalInstruction (.word w))) ∨
    (∃ x, s.mode = .waitKey x ∧ stepWith p s = .next (pollKeys x s)) ∨
    ∃ r, s.mode = .faulted r ∧ stepWith p s = .next s := by
  cases hm : s.mode with
  | run =>
    by_cases hf : s.pc.toNat + 2 ≤ 4096
    · cases hd : decode s.wordAtPc with
      | instr i =>
        have h : s.AboutToRun i := ⟨hm, hf, hd⟩
        exact .inl ⟨i, h, by rw [stepWith, instructionStep_run h, dropReport_reportExec]⟩
      | invalid w =>
        have hd' : decode (bigEndian (s.mem.read s.pc.toNat) (s.mem.read (s.pc.toNat + 1))) = .invalid w := hd
        exact .inr (.inr (.inl ⟨rfl, hf, w, rfl, by
          simp [stepWith, instructionStep, hm, runStep, fetchWord_inRange hf, hd', dropReport]⟩))
    · exact .inr (.inl ⟨rfl, hf, by
        simp [stepWith, instructionStep, hm, runStep, fetchWord_outOfRange hf, dropReport]⟩)
  | waitKey x => exact .inr (.inr (.inr (.inl ⟨x, rfl, by simp [stepWith, instructionStep, hm, dropReport]⟩)))
  | faulted r => exact .inr (.inr (.inr (.inr ⟨r, rfl, by simp [stepWith, instructionStep, hm, dropReport]⟩)))

/-- The same for `step`, whose instruction is run by `exec`. -/
theorem step_cases (s : State) :
    (∃ i, s.AboutToRun i ∧ step s = exec i s) ∨
    (s.mode = .run ∧ ¬s.pc.toNat + 2 ≤ 4096 ∧
      step s = .next (takeFault s none .addressOutOfRange (.address (max s.pc.toNat 4096)))) ∨
    (s.mode = .run ∧ s.pc.toNat + 2 ≤ 4096 ∧ ∃ w, decode s.wordAtPc = .invalid w ∧
      step s = .next (takeFault s (some w) .illegalInstruction (.word w))) ∨
    (∃ x, s.mode = .waitKey x ∧ step s = .next (pollKeys x s)) ∨
    ∃ r, s.mode = .faulted r ∧ step s = .next s := by
  simpa only [step, execWith_default] using stepWith_cases Parameters.default s

/-- The bytes placed for the next step are in memory's canonical form if memory was. -/
theorem wf_placeWord {s : State} (w : Word) (h : s.mem.wf = true) : (placeWord s w).mem.wf = true := by
  refine Memory.wf_writeBytes h ?_
  unfold fetchAddress
  split
  · assumption
  · simp [progBase, memSize]

/-- The memory a reset leaves is in canonical form, for any parameters (70_reset_and_hazards.md R141). -/
theorem wf_hostReset {s : State} {p : Parameters} (h : s.image.length ≤ maxImage) : (hostReset s p).mem.wf = true := by
  refine Memory.wf_writeBytes (Memory.wf_writeBytes Memory.wf_nil ?_) ?_
  · simp [memSize]
  · simp only [maxImage, memSize, progBase] at h ⊢
    omega

/-- Writing the default font over empty memory lists nothing: an unlisted address reads as it. -/
theorem writeBytes_standardFont : Memory.writeBytes [] 0 standardFont.toList = [] := by decide

/-- Power-on with the default parameters is `State.reset` (70_reset_and_hazards.md R143). -/
theorem powerOn_default : powerOn Parameters.default = State.reset := by
  simp [powerOn, hostReset, Parameters.default, writeBytes_standardFont, State.reset, Memory.writeBytes]

end Sys2Proof.Machine
end

