-- ==== Sys2Proof/Tests/Slice0.lean ====
section
/-! SUPPORT. The model's own tests, by decide, and a witness for the hypotheses of each obligation that has some. The expected
results are those of spec/95_test_vectors.md (each comment gives the vector's id) or are worked out from the rule named. -/

namespace Sys2Proof.Tests

open Sys2Proof Sys2Proof.Machine

/-! ### Helpers -/

/-- The reset state with the word `w` at 0x200, as 95_test_vectors.md's convention has it. -/
def start (w : Nat) : State := State.reset.withFetchWord 16 w

/-- What `f` sees of the state after one step; `none` if the model stops or refuses. -/
def look {α : Type} (s : State) (f : State → α) : Option α :=
  match step s with
  | .next t => some (f t)
  | _ => none

/-- The record a step leaves latched, as (code, pc, word), with nothing else changed. -/
def faultSeen (s : State) : Option (Nat × Nat × Option Word) :=
  match step s with
  | .next t =>
    match t.mode with
    | .faulted r => if t = { s with mode := t.mode } then some (r.code.toNat, r.pc.toNat, r.word) else none
    | _ => none
  | _ => none

/-- The columns `0` to `63` of row `row` that are on. -/
def litColumns (s : State) (row : Nat) : List Nat := (List.range 64).filter fun c => pixel s.disp c row

/-- The other value of RSUB_UNDERFLOW_FAULTS. -/
def faultingParameters : Parameters := { rsubFaults := true }

/-- A FONT that differs from the default in byte 0: 0x0F for 0xF0. -/
def otherFont : Parameters := { font := standardFont.set 0 0x0F }

/-! ### Decoding: words written out from the patterns of 30_encoding.md R55, for every constructor -/

theorem test_decode_system :
    decode 0b0000_0000_1110_0000 = .instr .cls ∧ encode .cls = 0b0000_0000_1110_0000 ∧
    decode 0b0000_0000_1110_1110 = .instr .ret ∧ encode .ret = 0b0000_0000_1110_1110 := by decide

theorem test_decode_control :
    decode 0b0001_0010_0011_0100 = .instr (.jp 0x234) ∧ decode 0b0010_0010_0000_1000 = .instr (.call 0x208) ∧
    decode 0b1011_0011_0000_0000 = .instr (.jpV0 0x300) := by decide

theorem test_decode_skips :
    decode 0b0011_0001_0000_0000 = .instr (.seImm 1 0x00) ∧ decode 0b0100_0010_0000_0110 = .instr (.sneImm 2 0x06) ∧
    decode 0b0101_0011_0100_0000 = .instr (.seReg 3 4) ∧ decode 0b1001_0011_0100_0000 = .instr (.sneReg 3 4) := by
  decide

theorem test_decode_loads :
    decode 0b0110_0001_0000_1010 = .instr (.ldImm 1 0x0A) ∧ decode 0b0111_0001_1111_1111 = .instr (.addImm 1 0xFF) ∧
    decode 0b1100_0001_0000_1111 = .instr (.rnd 1 0x0F) ∧ decode 0b1010_0011_0000_0000 = .instr (.ldI 0x300) := by
  decide

theorem test_decode_alu :
    decode 0b1000_0001_0010_0000 = .instr (.ldReg 1 2) ∧ decode 0b1000_0001_0010_0001 = .instr (.orReg 1 2) ∧
    decode 0b1000_0001_0010_0010 = .instr (.andReg 1 2) ∧ decode 0b1000_0001_0010_0011 = .instr (.xorReg 1 2) ∧
    decode 0b1000_0001_0010_0100 = .instr (.addReg 1 2) ∧ decode 0b1000_0001_0010_0101 = .instr (.subReg 1 2) ∧
    decode 0b1000_0001_1010_0110 = .instr (.shr 1 10) ∧ decode 0b1000_0001_0010_0111 = .instr (.subn 1 2) ∧
    decode 0b1000_1111_1111_1110 = .instr (.shl 15 15) := by decide

theorem test_decode_display_and_keys :
    decode 0b1101_0001_0010_0101 = .instr (.drw 1 2 5) ∧ decode 0b1110_0011_1001_1110 = .instr (.skp 3) ∧
    decode 0b1110_0011_1010_0001 = .instr (.sknp 3) := by decide

theorem test_decode_misc :
    decode 0b1111_0001_0000_0111 = .instr (.ldVxDt 1) ∧ decode 0b1111_0000_0000_1010 = .instr (.ldVxK 0) ∧
    decode 0b1111_0000_0001_0101 = .instr (.ldDtVx 0) ∧ decode 0b1111_0010_0001_1000 = .instr (.ldStVx 2) ∧
    decode 0b1111_0010_0001_1110 = .instr (.addIVx 2) ∧ decode 0b1111_1010_0010_1001 = .instr (.ldFVx 10) ∧
    decode 0b1111_1010_0011_0011 = .instr (.ldBVx 10) ∧ decode 0b1111_0001_0101_0101 = .instr (.ldMemVx 1) ∧
    decode 0b1111_0010_0110_0101 = .instr (.ldVxMem 2) := by decide

/-- The encoder gives the same words back, one per format (30_encoding.md R53). -/
theorem test_encode :
    encode (.call 0x208) = 0x2208 ∧ encode (.rnd 1 0x0F) = 0xC10F ∧ encode (.shr 1 10) = 0x81A6 ∧
    encode (.drw 1 2 5) = 0xD125 ∧ encode (.sknp 3) = 0xE3A1 ∧ encode (.ldVxMem 2) = 0xF265 ∧
    encodeBytes (.ldImm 1 0x0A) = [0x61, 0x0A] := by decide

/-- F-D1 to F-D9. -/
theorem test_decode_invalid :
    [0x0000, 0x0123, 0x00E1, 0x5121, 0x8128, 0x812F, 0x9121, 0xE000, 0xFFFF].all
      (fun w : Word => decide (decode w = .invalid w)) = true := by decide

/-- W1, W15: the first byte is the high byte; a lone byte is no instruction. -/
theorem test_decode_bytes :
    decodeBytes [0x61, 0x0A, 0x12] = some (.instr (.ldImm 1 0x0A), [0x12]) ∧ decodeBytes [0x61] = none := by decide

theorem test_decode_table_word :
    decodeTableWord 16 0x8124 = some (.addReg 1 2) ∧ decodeTableWord 16 0x0123 = none := by decide

/-! ### Well-formedness: each check refuses a term -/

theorem test_illFormed_address :
    (Instr.jp 0x1000).wellFormed = false ∧ (Instr.call 0x1000).wellFormed = false ∧
    (Instr.ldI 0x1000).wellFormed = false ∧ (Instr.jpV0 0xFFFF).wellFormed = false ∧
    (Instr.jp 0xFFF).wellFormed = true := by decide

theorem test_illFormed_length : (Instr.drw 0 1 16).wellFormed = false ∧ (Instr.drw 0 1 15).wellFormed = true := by
  decide

/-! ### Printing (30_encoding.md R60) -/

theorem test_print :
    showDecoded (decode 0x00E0) = "CLS" ∧ showDecoded (decode 0x1206) = "JP 206" ∧
    showDecoded (decode 0xB30A) = "JP V0, 30A" ∧ showDecoded (decode 0xD01F) = "DRW V0, V1, F" ∧
    showDecoded (decode 0xFF65) = "LD VF, [I]" ∧ showDecoded (decode 0x0123) = "DW 0x0123" := by decide

/-! ### The core cycle -/

/-- F-C1. -/
theorem test_cycle_runs : look (start 0x6105) (fun t => (t.reg 1, t.pc, t.mode)) = some (5, 0x202, .run) := by decide

/-- F-C2, F-C3. -/
theorem test_cycle_fetchFaults :
    faultSeen { State.reset with pc := 0xFFF } = some (2, 0xFFF, none) ∧
    faultSeen { State.reset with pc := 0x1000 } = some (2, 0x1000, none) := by decide

/-- F-C4, F-C5: the last whole word, and an odd address. -/
theorem test_cycle_edges :
    look (State.withFetchWord { State.reset with pc := 0xFFE } 16 0x1200) (fun t => t.pc) = some 0x200 ∧
    look (State.withFetchWord { State.reset with pc := 0x201 } 16 0x610A) (fun t => (t.reg 1, t.pc)) = some (0x0A, 0x203) := by
  decide

/-- F-D1, F-D2, F-H4. -/
theorem test_cycle_illegal :
    faultSeen State.reset = some (1, 0x200, some 0x0000) ∧ faultSeen (start 0x0123) = some (1, 0x200, some 0x0123) := by
  decide

/-- F-T9, F-T10: the poll takes the lowest key. -/
theorem test_poll :
    look { ((State.reset.setKey 9 true).setKey 3 true) with mode := .waitKey 0 }
      (fun t => (t.reg 0, t.key[3], t.key[9], t.mode, t.pc)) = some (3, false, true, .run, 0x200) ∧
    look { (State.reset.setKey 2 true) with mode := .waitKey 15 } (fun t => (t.reg 15, t.mode)) = some (2, .run) := by
  decide

/-- F-T8. -/
theorem test_poll_noKey :
    look { State.reset with mode := .waitKey 0 } id = some { State.reset with mode := .waitKey 0 } := by decide

/-! ### Control transfer -/

/-- F-R1, F-R3. -/
theorem test_ret :
    look { start 0x00EE with sp := 1, stack := State.reset.stack.set 0 0x206 } (fun t => (t.sp, t.pc, t.stack[0])) =
      some (0, 0x206, 0x206) ∧
    look { start 0x00EE with sp := 16, stack := State.reset.stack.set 15 0x400 } (fun t => (t.sp, t.pc)) =
      some (15, 0x400) := by decide

/-- F-R2. -/
theorem test_ret_underflow : faultSeen (start 0x00EE) = some (4, 0x200, some 0x00EE) := by decide

/-- F-J1, F-J2. -/
theorem test_jp : look (start 0x1234) (fun t => t.pc) = some 0x234 ∧ look (start 0x1200) id = some (start 0x1200) := by
  decide

/-- F-S2. -/
theorem test_call :
    look { start 0x2300 with sp := 15 } (fun t => (t.stack[15], t.sp, t.pc)) = some (0x202, 16, 0x300) := by decide

/-- F-S3. -/
theorem test_call_overflow : faultSeen { start 0x2300 with sp := 16 } = some (3, 0x200, some 0x2300) := by decide

/-- F-K1, F-K2, F-K3. -/
theorem test_seImm :
    look (start 0x3100) (fun t => t.pc) = some 0x204 ∧ look ((start 0x3100).setReg 1 1) (fun t => t.pc) = some 0x202 ∧
    look ((start 0x3F07).setReg 15 7) (fun t => t.pc) = some 0x204 := by decide

/-- F-K4, F-K5. -/
theorem test_sneImm :
    look ((start 0x4205).setReg 2 5) (fun t => t.pc) = some 0x202 ∧
    look ((start 0x4206).setReg 2 5) (fun t => t.pc) = some 0x204 := by decide

/-- F-K6, F-K7. -/
theorem test_seReg :
    look (((start 0x5340).setReg 3 0x7F).setReg 4 0x7F) (fun t => t.pc) = some 0x204 ∧
    look (((start 0x5340).setReg 3 1).setReg 4 2) (fun t => t.pc) = some 0x202 := by decide

/-- F-K9, F-K10. -/
theorem test_sneReg :
    look (((start 0x9340).setReg 3 1).setReg 4 2) (fun t => t.pc) = some 0x204 ∧
    look ((start 0x9330).setReg 3 1) (fun t => t.pc) = some 0x202 := by decide

/-- F-B2, F-B3. -/
theorem test_jpV0 :
    look ((start 0xBFFF).setReg 0 0xFF) (fun t => t.pc) = some 0x10FE ∧
    look (((start 0xB300).setReg 0 1).setReg 3 0x50) (fun t => t.pc) = some 0x301 := by decide

/-! ### Register loads and ALU -/

/-- F-A1. -/
theorem test_ldImm : look (start 0x6FAA) (fun t => (t.reg 15, t.pc)) = some (0xAA, 0x202) := by decide

/-- F-A2, F-A3. -/
theorem test_addImm :
    look ((start 0x71FF).setReg 1 5) (fun t => t.reg 1) = some 4 ∧
    look (((start 0x7101).setReg 1 0xFF).setReg 15 0x77) (fun t => (t.reg 1, t.reg 15)) = some (0, 0x77) := by decide

/-- F-A4. -/
theorem test_ldReg : look ((start 0x8120).setReg 2 0x33) (fun t => (t.reg 1, t.reg 2)) = some (0x33, 0x33) := by decide

/-- F-A6. -/
theorem test_orReg :
    look ((((start 0x8121).setReg 1 1).setReg 2 2).setReg 15 0x77) (fun t => (t.reg 1, t.reg 15)) = some (3, 0x77) := by
  decide

/-- F-A7. -/
theorem test_andReg : look (((start 0x8122).setReg 1 0xF3).setReg 2 0x3C) (fun t => t.reg 1) = some 0x30 := by decide

/-- F-A8, F-A9. -/
theorem test_xorReg :
    look (((start 0x8123).setReg 1 0xFF).setReg 2 0x0F) (fun t => t.reg 1) = some 0xF0 ∧
    look ((start 0x8113).setReg 1 0x5A) (fun t => t.reg 1) = some 0 := by decide

/-- F-A11, F-A10. -/
theorem test_addReg :
    look (((start 0x8124).setReg 1 0xFF).setReg 2 1) (fun t => (t.reg 1, t.reg 15)) = some (0, 1) ∧
    look (((start 0x8124).setReg 1 0x10).setReg 2 0x20) (fun t => (t.reg 1, t.reg 15)) = some (0x30, 0) := by decide

/-- F-A13, F-A14: VF as destination, VF as source. -/
theorem test_addReg_vf :
    look (((start 0x8F14).setReg 15 0x80).setReg 1 0x90) (fun t => (t.reg 1, t.reg 15)) = some (0x90, 1) ∧
    look (((start 0x81F4).setReg 1 1).setReg 15 1) (fun t => (t.reg 1, t.reg 15)) = some (2, 0) := by decide

/-- F-A15, F-A16, F-A17. -/
theorem test_subReg :
    look (((start 0x8125).setReg 1 9).setReg 2 3) (fun t => (t.reg 1, t.reg 15)) = some (6, 1) ∧
    look (((start 0x8125).setReg 1 5).setReg 2 5) (fun t => (t.reg 1, t.reg 15)) = some (0, 0) ∧
    look ((start 0x8125).setReg 2 1) (fun t => (t.reg 1, t.reg 15)) = some (0xFF, 0) := by decide

/-- F-A18. -/
theorem test_subReg_vf : look (((start 0x8F15).setReg 15 9).setReg 1 3) (fun t => t.reg 15) = some 1 := by decide

/-- F-A20, F-A21. -/
theorem test_shr :
    look (((start 0x81A6).setReg 1 0x80).setReg 10 0xFF) (fun t => (t.reg 1, t.reg 15)) = some (0x40, 0) ∧
    look ((start 0x8F06).setReg 15 3) (fun t => t.reg 15) = some 1 := by decide

/-- F-A23, F-A25. -/
theorem test_subn :
    look (((start 0x8127).setReg 1 3).setReg 2 10) (fun t => (t.reg 1, t.reg 15)) = some (7, 1) ∧
    look (((start 0x8127).setReg 1 2).setReg 2 1) (fun t => (t.reg 1, t.reg 15)) = some (0xFF, 0) := by decide

/-- F-A26: the other value of the parameter. -/
theorem test_subn_faulting :
    (match stepWith faultingParameters (((start 0x8127).setReg 1 2).setReg 2 1) with
      | .next t => some (t.mode, t.reg 1, t.pc)
      | _ => none) =
    some (.faulted { cause := .arithmeticUnderflow, code := 6, pc := 0x200, word := some 0x8127, info := .operands 2 1 },
      2, 0x200) := by decide

/-- F-A28, F-A30. -/
theorem test_shl :
    look ((start 0x810E).setReg 1 0xFF) (fun t => (t.reg 1, t.reg 15)) = some (0xFE, 1) ∧
    look ((start 0x8FFE).setReg 15 0x80) (fun t => t.reg 15) = some 1 := by decide

/-- F-A32, and the counter of draws: the value itself is free, so nothing else can be tested. -/
theorem test_rnd : look (start 0xC100) (fun t => t.draws) = some 1 := by decide

/-! ### Address register and memory -/

/-- F-M1. -/
theorem test_ldI : look (start 0xA300) (fun t => t.i) = some 0x300 := by decide

/-- F-M3, F-M4. -/
theorem test_addI :
    look { (start 0xF11E).setReg 1 1 with i := 0xFFF } (fun t => (t.i, t.reg 15)) = some (0x1000, 0) ∧
    look { (start 0xF11E).setReg 1 1 with i := 0xFFFF } (fun t => t.i) = some 0 := by decide

/-- F-M5, F-M7. -/
theorem test_ldF :
    look ((start 0xFA29).setReg 10 10) (fun t => t.i) = some 0x032 ∧
    look ((start 0xF129).setReg 1 0xFF) (fun t => t.i) = some 0x4FB := by decide

/-- F-M9, F-M11. -/
theorem test_ldB :
    look { (start 0xF133).setReg 1 0xFF with i := 0x300 } (fun t => t.mem.readBytes 0x300 3) = some [2, 5, 5] ∧
    look { (start 0xF133).setReg 1 42 with i := 0xFFD } (fun t => t.mem.readBytes 0xFFD 3) = some [0, 4, 2] := by decide

/-- F-M12. -/
theorem test_ldB_fault :
    faultSeen { (start 0xF133).setReg 1 42 with i := 0xFFE } = some (2, 0x200, some 0xF133) := by decide

/-- F-M13, F-M21. -/
theorem test_ldMem :
    look { ((start 0xF155).setReg 0 0x11).setReg 1 0x22 with i := 0x400 } (fun t => (t.mem.readBytes 0x400 3, t.i)) =
      some ([0x11, 0x22, 0], 0x400) ∧
    look { (start 0xF055).setReg 0 0xAA with i := 0 } (fun t => t.mem.readBytes 0 2) = some [0xAA, 0x90] := by decide

/-- F-M15, F-M16. -/
theorem test_ldMem_edge :
    faultSeen { start 0xF155 with i := 0xFFF } = some (2, 0x200, some 0xF155) ∧
    look { (start 0xF055).setReg 0 9 with i := 0xFFF } (fun t => t.mem.read 0xFFF) = some 9 := by decide

/-- F-M17 (V3 keeps its value). -/
theorem test_ldVxMem :
    look { (start 0xF265).setReg 3 9 with i := 0x300, mem := (start 0xF265).mem.writeBytes 0x300 [1, 2, 3] }
      (fun t => (t.reg 0, t.reg 1, t.reg 2, t.reg 3, t.i)) = some (1, 2, 3, 9, 0x300) := by decide

/-- F-M19. -/
theorem test_ldVxMem_fault : faultSeen { start 0xF065 with i := 5000 } = some (2, 0x200, some 0xF065) := by decide

/-- The font as 20_memory.md R39 prints it: the first glyph, the last, and the byte after it. -/
theorem test_font :
    State.reset.mem.readBytes 0 5 = [0xF0, 0x90, 0x90, 0x90, 0xF0] ∧
    State.reset.mem.readBytes 0x4B 6 = [0xF0, 0x80, 0xF0, 0x80, 0x80, 0] := by decide

/-- Another FONT: its bytes stand at 0x000 after a reset and at power-on, and DRW draws them. -/
theorem test_font_parameter :
    (hostReset State.reset otherFont).mem.readBytes 0 2 = [0x0F, 0x90] ∧ (powerOn otherFont).mem.read 0 = 0x0F ∧
    look (State.withFetchWord (powerOn otherFont) 16 0xD011) (fun t => litColumns t 0) = some [4, 5, 6, 7] ∧
    look (start 0xD011) (fun t => litColumns t 0) = some [0, 1, 2, 3] := by decide

/-- Writing the value an unlisted address reads as lists nothing (log entry 3). -/
theorem test_memory_canonical :
    Memory.write (Memory.write [] 0x300 5) 0x300 0 = [] ∧ Memory.write [] 0 0xF0 = [] ∧
    Memory.wf (start 0x6105).mem = true := by decide

/-! ### Display -/

/-- F-G1: a lit pixel goes off. -/
theorem test_cls :
    look { start 0x00E0 with disp := togglePixel Grid.blank 63 31 } (fun t => (pixel t.disp 63 31, t.reg 15)) =
      some (false, 0) := by decide

/-- F-G5 and F-G11: clipping, and a collision at the edge. -/
theorem test_drw_clips :
    look { (start 0xD011).setReg 0 0x3C with i := 0x300, mem := (start 0xD011).mem.write 0x300 0xFF }
      (fun t => (litColumns t 0, t.reg 15)) = some ([60, 61, 62, 63], 0) ∧
    look { (start 0xD011).setReg 0 0x3F with i := 0x300, mem := (start 0xD011).mem.write 0x300 0xFF,
                                              disp := togglePixel Grid.blank 63 0 }
      (fun t => (litColumns t 0, t.reg 15)) = some ([], 1) := by decide

/-- F-G12, F-G13: no rows, and VF's old value as a coordinate. -/
theorem test_drw_vf :
    look { (start 0xD010).setReg 15 1 with i := 0xFFFF } (fun t => t.reg 15) = some 0 ∧
    look { (start 0xDF01).setReg 15 5 with i := 0x300, mem := (start 0xDF01).mem.write 0x300 0xC0 }
      (fun t => (litColumns t 0, t.reg 15)) = some ([5, 6], 0) := by decide

/-! ### Keys and timers -/

/-- F-T1, and F-T5's fault. -/
theorem test_skp :
    look (((start 0xE39E).setKey 5 true).setReg 3 5) (fun t => (t.pc, t.key[5])) = some (0x204, false) ∧
    faultSeen (((start 0xE19E).setKey 0 true).setReg 1 16) = some (5, 0x200, some 0xE19E) := by decide

/-- F-T3, F-T4. -/
theorem test_sknp :
    look ((start 0xE3A1).setReg 3 5) (fun t => t.pc) = some 0x204 ∧
    look (((start 0xE3A1).setKey 5 true).setReg 3 5) (fun t => (t.pc, t.key[5])) = some (0x202, false) := by decide

/-- F-T7 and F-T11: no poll in Fx0A's own step. -/
theorem test_ldVxK :
    look ((start 0xF00A).setKey 4 true) (fun t => (t.mode, t.pc, t.key[4])) = some (.waitKey 0, 0x202, true) := by decide

/-- F-T12. -/
theorem test_ldVxDt : look { start 0xF107 with dt := 0x3C } (fun t => t.reg 1) = some 0x3C := by decide

/-- F-T13. -/
theorem test_ldDtVx : look ((start 0xF015).setReg 0 5) (fun t => (t.dt, t.st)) = some (5, 0) := by decide

/-- F-T14. -/
theorem test_ldStVx :
    look ((start 0xF218).setReg 2 2) (fun t => (t.st, soundOn t, soundOn (frequencyStep (frequencyStep t)))) =
      some (2, true, false) := by decide

/-- F-T16, and W9's floor. -/
theorem test_tick :
    (frequencyStep { State.reset with st := 1 }).st = 0 ∧ (frequencyStep { State.reset with dt := 2 }).dt = 1 ∧
    (frequencyStep State.reset).dt = 0 := by decide

/-! ### The host -/

/-- F-T19, F-H6. -/
theorem test_host_refuses :
    hostOp (.keyPressed 16) State.reset = .refused (.keyIndex 16) ∧
    hostOp (.loadProgram (List.replicate 3585 0)) State.reset = .refused (.imageTooLong 3585) := by
  refine ⟨rfl, ?_⟩
  have h : (List.replicate 3585 (0 : Byte)).length = 3585 := List.length_replicate
  rw [hostOp, hostLoad, h, if_neg (by decide), silent]

/-- F-H2, F-H3: the program's store is gone, the fault is cleared, the image is back. -/
theorem test_host_reset :
    (fun t : State => (t.mem.read 0x300, t.mem.readBytes 0x200 4, t.mode, t.pc)) (hostReset { State.reset with
      mem := [(0x300, 0x55)], image := [0x61, 0x0A], pc := 0x300, mode := .faulted
        { cause := .illegalInstruction, code := 1, pc := 0x300, word := some 0x5500, info := .word 0x5500 } }) =
      (0, [0x61, 0x0A, 0, 0], .run, 0x200) := by decide

/-! ### Witnesses: for each obligation with hypotheses, states and operands that meet them, each clause at a boundary -/

/-- The word at 0x200, fetched in mode `run`. -/
theorem aboutToRun_start {w : Nat} {i : Instr} (hd : decode (start w).wordAtPc = .instr i) : (start w).AboutToRun i :=
  ⟨rfl, by show (2 : Nat) + 512 ≤ 4096; decide, hd⟩

/-- The state before a test's step meets the invariant. -/
theorem inv_start : (start 0x6105).Inv := ⟨by decide, by decide, by decide, rfl⟩

theorem witness_DecodeOfEncodeIsTheInstruction :
    (Instr.jp 0xFFF).wellFormed = true ∧ (Instr.drw 15 15 15).wellFormed = true := by decide

theorem witness_EncodeOfDecodeIsTheWord : decode 0x81A6 = .instr (.shr 1 10) := by decide

theorem witness_DecoderFollowsTheOpcodeTable :
    (∃ i, decode 0x81A6 = .instr i ∧ i.kind = .shr) ∧
    ∃ row ∈ opcodeTable, row.1 = InstrKind.shr ∧ (0x81A6 : Word) &&& row.2.1 = row.2.2 :=
  ⟨⟨.shr 1 10, by decide, rfl⟩, (.shr, 0xF00F, 0x8006), by decide, rfl, by decide⟩

theorem witness_RetPopsTheReturnAddress :
    { State.reset with sp := 1 }.sp.toNat = (0 : Fin 16).val + 1 ∧
    { State.reset with sp := 16 }.sp.toNat = (15 : Fin 16).val + 1 ∧ State.reset.sp = 0 := by decide

theorem witness_JpSetsPc : (0x000 : Word).toNat < 4096 ∧ (0xFFF : Word).toNat < 4096 := by decide

theorem witness_CallPushesTheReturnAddress :
    (0xFFF : Word).toNat < 4096 ∧ State.reset.sp.toNat < 16 ∧ { State.reset with sp := 15 }.sp.toNat < 16 ∧
    { State.reset with sp := 16 }.sp = 16 := by decide

theorem witness_SkipOnRegisters : (15 : Fin 16) ≠ 0 ∧ (1 : Fin 16) ≠ 0 ∧ 0x9000 ∈ [0x5000, 0x9000] := by decide

theorem witness_JpV0AddsV0 : (0xFFF : Word).toNat < 4096 := by decide

/-- AddRegCarriesToVF, SubRegFlagsStrictlyGreater, ShrShiftsBitZeroToVF, ShlShiftsBitSevenToVF, SubnWrapsByDefault: the
clause for a destination other than VF. -/
theorem witness_destination_other_than_VF : (14 : Reg) ≠ 15 := by decide

/-- Vx = Vy completes under both values of the parameter; Vy = Vx - 1 is the first pair that can fault. -/
theorem witness_SubnUnderBothParameterValues :
    Parameters.default.rsubFaults = false ∧ (State.reset.reg 1).toNat ≤ (State.reset.reg 2).toNat ∧
    faultingParameters.rsubFaults = true ∧
    ((State.reset.setReg 1 1).reg 2).toNat < ((State.reset.setReg 1 1).reg 1).toNat := by decide

theorem witness_EachDrawIsAFreshFreeValue :
    (∀ x kk, Instr.jp 0x300 ≠ .rnd x kk) ∧ exec (.jp 0x300) State.reset = .next { State.reset with pc := 0x300 } :=
  ⟨fun _ _ h => Instr.noConfusion h, rfl⟩

theorem witness_LdILoadsTheAddress : (0xFFF : Word).toNat < 4096 := by decide

theorem witness_LdBStoresTheDecimalDigits :
    { State.reset with i := 0xFFD }.blockBase + 2 < 4096 ∧ { State.reset with i := 0xFFE }.blockBase + 2 ≥ 4096 ∧
    { State.reset with i := 0xFFFF }.blockBase + 2 ≥ 4096 := by decide

theorem witness_LdMemStoresTheRegisterBlock :
    { State.reset with i := 0xFF0 }.blockBase + (15 : Reg).val < 4096 ∧ (15 : Reg) ≤ 15 ∧
    { State.reset with i := 0xFF1 }.blockBase + (15 : Reg).val ≥ 4096 ∧
    { State.reset with i := 0x1000 }.blockBase + (0 : Reg).val ≥ 4096 := by decide

theorem witness_LdVxMemLoadsTheRegisterBlock :
    { State.reset with i := 0xFFF }.blockBase + (0 : Reg).val < 4096 ∧
    { State.reset with i := 0xFFF }.blockBase + (1 : Reg).val ≥ 4096 := by decide

/-- The encoding's largest length; the last block that fits and the first that does not; a sprite over a lit pixel, and one
over none. -/
theorem witness_DrwXorsTheSpriteAndReportsCollision :
    15 < 16 ∧ { State.reset with i := 0xFF1 }.blockBase + 15 - 1 < 4096 ∧
    { State.reset with i := 0xFF2 }.blockBase + 15 - 1 ≥ 4096 ∧ { State.reset with i := 0xFFFF }.blockBase + 1 - 1 ≥ 4096 ∧
    pixel (togglePixel Grid.blank 63 31) 63 31 = true ∧
    spriteCovers (Memory.write [] 0x300 0x80) 0x300 63 31 1 63 31 = true ∧
    ¬∃ px py : Nat, px < 64 ∧ py < 32 ∧ pixel Grid.blank px py = true ∧ spriteCovers [] 0 0 0 0 px py = true := by
  refine ⟨by decide, by decide, by decide, by decide, by decide, by decide, ?_⟩
  rintro ⟨px, py, hx, hy, hp, _⟩
  simp [pixel, hx, hy, Grid.blank] at hp

theorem witness_KeySkipsConsumeTheKey :
    ((State.reset.setReg 1 15).reg 1).toNat < 16 ∧ ((State.reset.setReg 1 16).reg 1).toNat > 15 := by decide

theorem witness_LdKEntersTheWait : (start 0xFF0A).AboutToRun (.ldVxK 15) := aboutToRun_start (by decide)

theorem witness_StepRunsTheDecodedInstruction : (start 0x6105).AboutToRun (.ldImm 1 5) := aboutToRun_start (by decide)

theorem witness_FetchReadsABigEndianPairOrFaults :
    { State.reset with pc := 0xFFE }.pc.toNat + 2 ≤ 4096 ∧ { State.reset with pc := 0x1000 }.pc.toNat ≥ 4096 ∧
    { State.reset with pc := 0xFFFF }.pc.toNat ≥ 4096 ∧ State.reset.mode = .run := by decide

theorem witness_InvalidWordRaisesIllegalInstruction :
    (start 0x0123).mode = .run ∧ (start 0x0123).pc.toNat + 2 ≤ 4096 ∧
    decode (start 0x0123).wordAtPc = .invalid (start 0x0123).wordAtPc := by decide

/-- Key 0 latched; key 15 alone latched; none latched. -/
theorem witness_PollConsumesTheLowestKey :
    { State.reset with mode := .waitKey 15 }.mode = .waitKey 15 ∧
    ((State.reset.setKey 0 true).key[(0 : Fin 16).val] = true ∧
      ∀ j : Fin 16, j < 0 → (State.reset.setKey 0 true).key[j.val] = false) ∧
    ((State.reset.setKey 15 true).key[(15 : Fin 16).val] = true ∧
      ∀ j : Fin 16, j < 15 → (State.reset.setKey 15 true).key[j.val] = false) ∧
    ∀ j : Fin 16, State.reset.key[j.val] = false := by decide

/-- A latched record, for the states in mode `faulted`. -/
def sampleRecord : FaultRecord :=
  { cause := .illegalInstruction, code := 1, pc := 0x200, word := some 0, info := .word 0 }

theorem witness_FaultedStepChangesNothing :
    { State.reset with mode := .faulted sampleRecord }.mode = .faulted sampleRecord := rfl

/-- A step that completes, and one that ends faulted. -/
theorem witness_CostIsAConstantOfTheKind :
    (Instr.jp 0x300).kind = (Instr.jp 0x400).kind ∧ (∀ x, Instr.jp 0x300 ≠ .ldVxK x) ∧
    ((start 0x1300).AboutToRun (.jp 0x300) ∧
      ∃ t r, instructionStep (start 0x1300) = .next (t, r) ∧ t.notFaulted = true) ∧
    ((start 0x00EE).AboutToRun .ret ∧
      ∃ t r rec, instructionStep (start 0x00EE) = .next (t, r) ∧ t.mode = .faulted rec) :=
  ⟨rfl, fun _ h => Instr.noConfusion h, ⟨aboutToRun_start (by decide), _, _, rfl, rfl⟩,
    aboutToRun_start (by decide), _, _, _, rfl, rfl⟩

theorem witness_SelfLoopIsAFixedPoint :
    (start 0x1200).mode = .run ∧ (start 0x1200).pc.toNat ≤ 0xFFE ∧ (start 0x1200).wordAtPc = 0x1000 ||| (start 0x1200).pc ∧
    (State.withFetchWord { State.reset with pc := 0xFFE } 16 0x1FFE).wordAtPc = 0x1000 ||| 0xFFE := by decide

/-- A step from each mode, each ending as its clause says. -/
theorem witness_ModeTransitionsOfAStep :
    (∃ t, step (start 0x1300) = .next t ∧ t.mode = .run) ∧ (start 0xF00A).AboutToRun (.ldVxK 0) ∧
    (∃ t rec, step (start 0x00EE) = .next t ∧ t.mode = .faulted rec) ∧
    (∃ t, step { State.reset with mode := .waitKey 3 } = .next t) ∧
    ∃ t, step { State.reset with mode := .faulted sampleRecord } = .next t :=
  ⟨⟨_, rfl, rfl⟩, aboutToRun_start (by decide), ⟨_, _, rfl, rfl⟩, ⟨_, rfl⟩, ⟨_, rfl⟩⟩

/-- A fault of the fetch, and one of an instruction. -/
theorem witness_FaultsArePrecise :
    (State.reset.mode = .run ∧ ∃ t rec, step { State.reset with pc := 0xFFF } = .next t ∧ t.mode = .faulted rec) ∧
    (start 0x00EE).mode = .run ∧ ∃ t rec, step (start 0x00EE) = .next t ∧ t.mode = .faulted rec :=
  ⟨⟨rfl, _, _, rfl, rfl⟩, rfl, _, _, rfl, rfl⟩

/-- Each cause, by its code: 1, 2 of the fetch, 2 of each access, 3, 4, 5; test_subn_faulting reaches 6. -/
theorem witness_FaultCausesAreTheListedOnes :
    [(start 0x0123), { State.reset with pc := 0xFFF }, { start 0xD012 with i := 0xFFF }, { start 0xF033 with i := 0xFFE },
      { start 0xF155 with i := 0xFFF }, { start 0xF165 with i := 0xFFF }, { start 0x2300 with sp := 16 }, start 0x00EE,
      (start 0xE19E).setReg 1 16].map (fun s => (look s fun t => match t.mode with
        | .faulted r => r.code.toNat
        | _ => 0)) = [some 1, some 2, some 2, some 2, some 2, some 2, some 3, some 4, some 5] := by decide

theorem witness_IllegalStackPointerStopsCallAndRet :
    { State.reset with sp := 17 }.sp.toNat > 16 ∧ { State.reset with sp := 255 }.sp.toNat > 16 := by decide

/-- OnlyDestinationRegistersChange, OnlyStoresChangeMemory, OnlyTheNamedInstructionsChangeEachPart,
SoundTimerAndImageAreNeverRead: an instruction that completes, for each clause. -/
theorem witness_exec_completes :
    (∃ t, exec (.addReg 1 2) State.reset = .next t) ∧ (∃ t, exec (.ldBVx 1) State.reset = .next t) ∧
    (∃ t, exec (.ldMemVx 15) State.reset = .next t) ∧ ∃ t, exec (.ldStVx 1) (State.reset.setReg 1 5) = .next t :=
  ⟨⟨_, rfl⟩, ⟨_, rfl⟩, ⟨_, rfl⟩, ⟨_, rfl⟩⟩

/-- Each part of the state does change under an instruction that may change it. -/
theorem witness_OnlyTheNamedInstructionsChangeEachPart :
    look (start 0xA300) (fun t => decide (t.i ≠ (start 0xA300).i)) = some true ∧
    look ((start 0xF115).setReg 1 5) (fun t => decide (t.dt ≠ 0)) = some true ∧
    look ((start 0xF118).setReg 1 5) (fun t => decide (t.st ≠ 0)) = some true ∧
    look (start 0x2300) (fun t => (decide (t.stack ≠ State.reset.stack), decide (t.sp ≠ 0))) = some (true, true) ∧
    look (start 0xD015) (fun t => pixel t.disp 0 0) = some true ∧
    look ((start 0xE19E).setKey 0 true) (fun t => t.key[0]) = some false := by decide

theorem witness_CanonicalMemoriesThatReadAlikeAreEqual :
    Memory.wf (start 0x6105).mem = true ∧ Memory.wf (Memory.write (Memory.write [] 0x201 5) 0x200 0x61) = true := by
  decide

theorem witness_PopUndoesPush : State.reset.sp.toNat < 16 ∧ { State.reset with sp := 15 }.sp.toNat < 16 := by decide

theorem witness_StepKeepsTheInvariant : (start 0x6105).Inv ∧ ∃ t, step (start 0x6105) = .next t := ⟨inv_start, _, rfl⟩

theorem witness_SchedulesKeepTheInvariant :
    (start 0x6105).Inv ∧ ∃ t rs, runSchedule [.keyPressed 15, .instructionStep, .frequencyStep, .loadProgram [0x12, 0x00], .reset]
      (start 0x6105) = .next (t, rs) := ⟨inv_start, _, _, rfl⟩

theorem witness_EveryStepHasANextState :
    (start 0x6105).Inv ∧ ∀ op ∈ [HostOp.loadProgram [0x12, 0x00], .keyPressed 15, .instructionStep],
      (∀ bytes, op = .loadProgram bytes → bytes.length ≤ 3584) ∧ (∀ k, op = .keyPressed k ∨ op = .keyReleased k → k < 16) := by
  refine ⟨inv_start, fun op h => ?_⟩
  simp only [List.mem_cons, List.not_mem_nil, or_false] at h
  rcases h with rfl | rfl | rfl <;> simp

theorem witness_ResetRestoresEveryElement :
    { State.reset with image := List.replicate 3584 0x61 }.image.length ≤ 3584 ∧ State.reset.image.length ≤ 3584 :=
  ⟨by rw [List.length_replicate], by decide⟩

theorem witness_LoadRemembersTheImageAndResets :
    (List.replicate 3584 (0x61 : Byte)).length ≤ 3584 ∧ (List.replicate 3585 (0x61 : Byte)).length > 3584 :=
  ⟨by rw [List.length_replicate], by rw [List.length_replicate]; decide⟩

theorem witness_ResetForgetsTheRun :
    (∀ bytes, HostOp.loadProgram bytes ∉ [HostOp.instructionStep, .keyPressed 3, .frequencyStep]) ∧
    ∃ t rs, runSchedule [.instructionStep, .keyPressed 3, .frequencyStep] (start 0x6105) = .next (t, rs) :=
  ⟨by simp, _, _, rfl⟩

theorem witness_HostKeysTicksAndReads : 16 ≥ 16 ∧ (15 : Fin 16).val < 16 := by decide

end Sys2Proof.Tests
end

section
/-! The counter of draws (00_scope.md R12; log entry 5): Cxkk uses the free value at it and moves it up, and no other
instruction touches it. -/

namespace Sys2Proof.Machine

/-- All that Cxkk answers (42_alu.md R99). -/
theorem exec_rnd (x : Reg) (kk : Byte) (s : State) :
    exec (.rnd x kk) s =
      .next ({ s.advance with draws := s.draws + 1 }.setReg x (Config.freeByte s.draws &&& kk)) := rfl

/-- An outcome has one next state, so what is known of the counter in one form of it holds in every other. -/
theorem keepsDraws_of_next {s t u : State} {o : Host.Outcome State Fault Refusal} (ho : o = .next t) (hu : o = .next u)
    (hd : u.draws = s.draws) : KeepsDraws s t := by
  obtain rfl : u = t := Host.Outcome.next.inj (hu.symm.trans ho)
  exact hd

/-- No instruction but Cxkk changes the counter, whether it completes or takes a fault. An instruction with a fault condition
is split by what it can answer; each of the others answers one next state, by definition. -/
theorem keepsDraws_of_exec {i : Instr} {s t : State} (hne : ∀ x kk, i ≠ .rnd x kk) (h : exec i s = .next t) :
    KeepsDraws s t := by
  cases i with
  | rnd x kk => exact absurd rfl (hne x kk)
  | call nnn =>
    rcases execCall_cases nnn s with ⟨_, he⟩ | ⟨_, he⟩ | ⟨_, he⟩
    · exact keepsDraws_of_next h he rfl
    · exact keepsDraws_of_next h he rfl
    · cases he.symm.trans h
  | ret =>
    rcases execRet_cases s with ⟨_, _, _, he⟩ | ⟨_, he⟩ | ⟨_, he⟩
    · exact keepsDraws_of_next h he rfl
    · exact keepsDraws_of_next h he rfl
    · cases he.symm.trans h
  | skp x => rcases execSkp_cases x s with ⟨_, he⟩ | ⟨_, he⟩ <;> exact keepsDraws_of_next h he (by simp)
  | sknp x => rcases execSknp_cases x s with ⟨_, he⟩ | ⟨_, he⟩ <;> exact keepsDraws_of_next h he (by simp)
  | subn x y => rcases execSubn_cases x y s with ⟨_, _, he⟩ | he <;> exact keepsDraws_of_next h he rfl
  | drw x y n => rcases execDrw_cases x y n s with ⟨_, _, _, he⟩ | ⟨_, _, he⟩ <;> exact keepsDraws_of_next h he rfl
  | ldBVx x => rcases execLdBVx_cases x s with ⟨_, he⟩ | ⟨_, he⟩ <;> exact keepsDraws_of_next h he rfl
  | ldMemVx x => rcases execLdMemVx_cases x s with ⟨_, he⟩ | ⟨_, he⟩ <;> exact keepsDraws_of_next h he rfl
  | ldVxMem x => rcases execLdVxMem_cases x s with ⟨_, he⟩ | ⟨_, he⟩ <;> exact keepsDraws_of_next h he rfl
  | seImm | sneImm | seReg | sneReg => exact keepsDraws_of_next h rfl (State.advanceSkip_draws ..)
  | _ => exact keepsDraws_of_next h rfl rfl

/-- Settles O22: the draw's own form by `exec_rnd`, the frame over every other instruction by `keepsDraws_of_exec`. -/
theorem eachDrawIsAFreshFreeValue : Obligations.EachDrawIsAFreshFreeValue := by
  refine ⟨fun x kk s => ⟨_, exec_rnd x kk s, ?_, rfl⟩, fun _ _ _ => keepsDraws_of_exec⟩
  rw [State.reg_setReg, if_pos rfl]

end Sys2Proof.Machine
end

section
/-! The effect of an instruction: all that one can write, said once over the whole table (10_state.md R15 to R29). What an
instruction leaves unchanged and what it keeps invariant follow by the cases of `ExecEffect`. -/

namespace Sys2Proof.Machine

/-- The changes an instruction can make to the state, each with what is known of the instructions that make it.
`effect_of_exec` says that `exec` has no other. -/
inductive ExecEffect (i : Instr) (s : State) : State → Prop
  /-- PC alone. -/
  | jumps (w : Word) : ExecEffect i s (s.setPc w)
  /-- PC alone, by a skip. -/
  | skips (b : Bool) : ExecEffect i s (s.advanceSkip b)
  /-- One register. -/
  | setsReg (x : Reg) (b : Byte) (hx : x ∈ destinations i) : ExecEffect i s (s.advance.setReg x b)
  /-- One register, from a draw. -/
  | draws (x : Reg) (b : Byte) (hx : x ∈ destinations i) :
      ExecEffect i s ({ s.advance with draws := s.draws + 1 }.setReg x b)
  /-- A result and the flag. -/
  | setsResultFlag (x : Reg) (a f : Byte) (hx : x ∈ destinations i) (hf : vf ∈ destinations i) :
      ExecEffect i s (s.advance.setResultFlag x a f)
  /-- V0..Vx. -/
  | setsRegBlock (bs : List Byte) (hd : ∀ r : Reg, r.val < bs.length → r ∈ destinations i) :
      ExecEffect i s (s.advance.setRegBlock bs)
  | setsI (w : Word) (hk : i.kind ∈ [InstrKind.ldI, .addIVx, .ldFVx]) : ExecEffect i s (s.advance.setI w)
  | setsDt (b : Byte) (hk : i.kind = .ldDtVx) : ExecEffect i s (s.advance.setDt b)
  | setsSt (b : Byte) (hk : i.kind = .ldStVx) : ExecEffect i s (s.advance.setSt b)
  /-- Memory, its canonical form kept. -/
  | stores (m : Memory) (hm : s.mem.wf = true → m.wf = true) : ExecEffect i s (s.advance.setMem m)
  /-- The framebuffer cleared. -/
  | clears (g : Grid) (hk : i.kind = .cls) : ExecEffect i s (s.advance.setDisp g)
  /-- The framebuffer and the flag. -/
  | blits (g : Grid) (f : Byte) (hk : i.kind = .drw) (hf : vf ∈ destinations i) :
      ExecEffect i s ((s.advance.setDisp g).setReg vf f)
  /-- A latch cleared, and PC by a skip. -/
  | readsKey (k : Fin 16) (b : Bool) (hk : i.kind ∈ [InstrKind.skp, .sknp]) :
      ExecEffect i s ((s.setKey k false).advanceSkip b)
  /-- The key wait begun (45_keys_timers.md R119). -/
  | waits (x : Reg) : ExecEffect i s (s.advance.setMode (.waitKey x))
  /-- A slot, SP up by one, PC. -/
  | pushes (a w : Word) (h : s.sp.toNat < 16) (hk : i.kind = .call) :
      ExecEffect i s { s with stack := s.stack.set s.sp.toNat a, sp := s.sp + 1, pc := w }
  /-- SP down by one, PC. -/
  | pops (w : Word) (h : (s.sp - 1).toNat < 16) (hk : i.kind = .ret) :
      ExecEffect i s { s with sp := s.sp - 1, pc := w }
  /-- A fault latched, its record well formed. -/
  | faults (c : FaultKind) (d : FaultInfo) (hok : (takeFault s (some (encode i)) c d).mode.ok s.pc = true) :
      ExecEffect i s (takeFault s (some (encode i)) c d)

/-- An outcome has one next state, so the effect may be read off any form of it. -/
theorem ExecEffect.of_next {i : Instr} {s t u : State} {o : Host.Outcome State Fault Refusal} (ho : o = .next t)
    (hu : o = .next u) (he : ExecEffect i s u) : ExecEffect i s t := by
  obtain rfl : u = t := Host.Outcome.next.inj (hu.symm.trans ho)
  exact he

/-- No record is latched outside mode `faulted`. -/
@[simp] theorem Mode.ok_run (pc : Word) : Mode.run.ok pc = true := rfl

@[simp] theorem Mode.ok_waitKey (pc : Word) (x : Reg) : (Mode.waitKey x).ok pc = true := rfl

@[simp] theorem Mode.ok_faulted (pc : Word) (r : FaultRecord) : (Mode.faulted r).ok pc = (r.wf && r.pc == pc) := rfl

/-- A record of an address fault is well formed: the address reported is at or above 4096 (60_exceptions.md R127). -/
theorem takeFault_addressOutOfRange_ok (s : State) (u : Option Word) (a : Nat) :
    (takeFault s u .addressOutOfRange (.address (max a 4096))).mode.ok s.pc = true := by
  simp [FaultRecord.wf, memSize]

/-- A record of a key index fault is well formed if the value names no key. -/
theorem takeFault_keyIndexOutOfRange_ok (s : State) (w : Word) {b : Byte} (h : 15 < b.toNat) :
    (takeFault s (some w) .keyIndexOutOfRange (.key b)).mode.ok s.pc = true := by
  simpa [FaultRecord.wf] using Nat.succ_le_of_lt h

/-- A record of an underflow is well formed if the subtraction does underflow. -/
theorem takeFault_arithmeticUnderflow_ok (s : State) (w : Word) {vx vy : Byte} (h : vy.toNat < vx.toNat) :
    (takeFault s (some w) .arithmeticUnderflow (.operands vx vy)).mode.ok s.pc = true := by
  simpa [FaultRecord.wf] using h

/-- Whatever an instruction's next state is, it has one of the effects. An instruction with a fault condition is split by
what it can answer; each of the others answers one next state, by definition. -/
theorem effect_of_exec {i : Instr} {s t : State} (h : exec i s = .next t) : ExecEffect i s t := by
  cases i with
  | jp | jpV0 => exact .of_next h rfl (.jumps _)
  | seImm | sneImm | seReg | sneReg => exact .of_next h rfl (.skips _)
  | ldImm | addImm | ldReg | orReg | andReg | xorReg | ldVxDt =>
    exact .of_next h rfl (.setsReg _ _ (by simp [destinations]))
  | rnd => exact .of_next h (exec_rnd ..) (.draws _ _ (by simp [destinations]))
  | addReg | subReg | shr | shl =>
    exact .of_next h rfl (.setsResultFlag _ _ _ (by simp [destinations]) (by simp [destinations]))
  | ldI | addIVx | ldFVx => exact .of_next h rfl (.setsI _ (by simp [Instr.kind]))
  | ldDtVx => exact .of_next h rfl (.setsDt _ rfl)
  | ldStVx => exact .of_next h rfl (.setsSt _ rfl)
  | cls => exact .of_next h rfl (.clears _ rfl)
  | ldVxK => exact .of_next h rfl (.waits _)
  | call nnn =>
    rcases execCall_cases nnn s with ⟨hsp, he⟩ | ⟨_, he⟩ | ⟨_, he⟩
    · exact .of_next h he (.pushes _ _ hsp rfl)
    · exact .of_next h he (.faults _ _ (by simp [FaultRecord.wf]))
    · cases he.symm.trans h
  | ret =>
    rcases execRet_cases s with ⟨j, _, hj, he⟩ | ⟨_, he⟩ | ⟨_, he⟩
    · exact .of_next h he (.pops _ (hj ▸ j.isLt) rfl)
    · exact .of_next h he (.faults _ _ (by simp [FaultRecord.wf]))
    · cases he.symm.trans h
  | skp x =>
    rcases execSkp_cases x s with ⟨_, he⟩ | ⟨hb, he⟩
    · exact .of_next h he (.readsKey _ _ (by simp [Instr.kind]))
    · exact .of_next h he (.faults _ _ (takeFault_keyIndexOutOfRange_ok _ _ hb))
  | sknp x =>
    rcases execSknp_cases x s with ⟨_, he⟩ | ⟨hb, he⟩
    · exact .of_next h he (.readsKey _ _ (by simp [Instr.kind]))
    · exact .of_next h he (.faults _ _ (takeFault_keyIndexOutOfRange_ok _ _ hb))
  | subn x y =>
    rcases execSubn_cases x y s with ⟨_, hlt, he⟩ | he
    · exact .of_next h he (.faults _ _ (takeFault_arithmeticUnderflow_ok _ _ hlt))
    · exact .of_next h he (.setsResultFlag _ _ _ (by simp [destinations]) (by simp [destinations]))
  | drw x y n =>
    rcases execDrw_cases x y n s with ⟨_, _, _, he⟩ | ⟨_, _, he⟩
    · exact .of_next h he (.blits _ _ rfl (by simp [destinations]))
    · exact .of_next h he (.faults _ _ (takeFault_addressOutOfRange_ok ..))
  | ldBVx x =>
    rcases execLdBVx_cases x s with ⟨hr, he⟩ | ⟨_, he⟩
    · exact .of_next h he (.stores _ fun hm => Memory.wf_writeBytes hm hr)
    · exact .of_next h he (.faults _ _ (takeFault_addressOutOfRange_ok ..))
  | ldMemVx x =>
    rcases execLdMemVx_cases x s with ⟨hr, he⟩ | ⟨_, he⟩
    · exact .of_next h he (.stores _ fun hm => Memory.wf_writeBytes hm (by rw [length_regBlock]; exact hr))
    · exact .of_next h he (.faults _ _ (takeFault_addressOutOfRange_ok ..))
  | ldVxMem x =>
    rcases execLdVxMem_cases x s with ⟨_, he⟩ | ⟨_, he⟩
    · refine .of_next h he (.setsRegBlock _ fun r hr => ?_)
      rw [Memory.length_readBytes] at hr
      simpa [destinations] using Nat.le_of_lt_succ hr
    · exact .of_next h he (.faults _ _ (takeFault_addressOutOfRange_ok ..))

end Sys2Proof.Machine
end

section
/-! The invariant of 10_state.md R32: it holds at reset, and every step keeps it. -/

namespace Sys2Proof.Machine

/-- Raising a legal SP that is not 16 does not wrap. -/
theorem toNat_pointer_succ {sp : Byte} (h : sp.toNat < 16) : (sp + 1).toNat = sp.toNat + 1 := by
  bv_omega

/-- A latched fault changes the mode only, so a well-formed record keeps the invariant. -/
theorem State.Inv.takeFault {s : State} {u : Option Word} {c : FaultKind} {d : FaultInfo} (h : s.Inv)
    (hok : (takeFault s u c d).mode.ok s.pc = true) : (takeFault s u c d).Inv :=
  ⟨h.memory, h.pointer, h.image, hok⟩

/-- The poll of a key wait changes a latch, a register and the mode, never to a fault. -/
theorem State.Inv.pollKeys {s : State} (x : Reg) (h : s.Inv) : (pollKeys x s).Inv := by
  rcases pollKeys_cases x s with ⟨k, _, _, he⟩ | ⟨_, he⟩ <;> rw [he]
  · exact ⟨h.memory, h.pointer, h.image, rfl⟩
  · exact h

/-- A change of none of the parts the invariant speaks of, in mode `run`, keeps it. -/
theorem State.Inv.of_keeps {s t : State} (h : s.Inv) (hrun : s.mode = .run) (hmem : t.mem = s.mem) (hsp : t.sp = s.sp)
    (himage : t.image = s.image) (hmode : t.mode = s.mode) : t.Inv :=
  ⟨hmem ▸ h.memory, hsp ▸ h.pointer, himage ▸ h.image, by rw [hmode, hrun, Mode.ok_run]⟩

/-- Each effect keeps the invariant: only `stores`, `pushes`, `pops`, `waits` and `faults` touch what it speaks of. -/
theorem State.Inv.of_effect {i : Instr} {s t : State} (h : s.Inv) (hrun : s.mode = .run) (he : ExecEffect i s t) :
    t.Inv := by
  cases he with
  | stores m hm => exact ⟨hm h.memory, h.pointer, h.image, by simp [hrun]⟩
  | pushes a w hsp => exact ⟨h.memory, (toNat_pointer_succ hsp).trans_le hsp, h.image, by simp [hrun]⟩
  | pops w hsp => exact ⟨h.memory, hsp.le, h.image, by simp [hrun]⟩
  | waits x => exact ⟨h.memory, h.pointer, h.image, rfl⟩
  | faults c d hok => exact h.takeFault hok
  | _ => exact h.of_keeps hrun (by simp) (by simp) (by simp) (by simp)

/-- Settles O54: by the cases of a step, an instruction by its effect. -/
theorem stepKeepsTheInvariant : Obligations.StepKeepsTheInvariant := by
  intro s t hs h
  rcases step_cases s with ⟨i, hi, he⟩ | ⟨_, _, he⟩ | ⟨_, _, w, _, he⟩ | ⟨x, _, he⟩ | ⟨_, _, he⟩ <;> rw [he] at h
  · exact hs.of_effect hi.mode (effect_of_exec h)
  all_goals obtain rfl := Host.Outcome.next.inj h
  · exact hs.takeFault (takeFault_addressOutOfRange_ok ..)
  · exact hs.takeFault (by simp [FaultRecord.wf])
  · exact hs.pollKeys x
  · exact hs

/-- The state after the host's reset meets the invariant if the remembered image fits. -/
theorem inv_hostReset {s : State} (p : Parameters) (h : s.image.length ≤ maxImage) : (hostReset s p).Inv :=
  ⟨wf_hostReset h, by simp [hostReset, State.reset], h, rfl⟩

/-- Settles O53: power-on is a reset with the empty image, and `State.reset` is power-on at the defaults. -/
theorem resetMeetsTheInvariant : Obligations.ResetMeetsTheInvariant := by
  have hpow (p : Parameters) : (powerOn p).Inv := inv_hostReset p (Nat.zero_le _)
  exact ⟨powerOn_default ▸ hpow _, powerOn_default, hpow⟩

end Sys2Proof.Machine
end

section
/-! What instructions leave unchanged, over the whole table (10_state.md R16 to R28): each statement by the cases of
`ExecEffect`. -/

namespace Sys2Proof.Machine

/-- Settles O46: of the effects only the register writes change a register, and each writes a destination. -/
theorem onlyDestinationRegistersChange : Obligations.OnlyDestinationRegistersChange := by
  intro i s t h q hq
  have hne {r : Reg} (hr : r ∈ destinations i) : q ≠ r := (ne_of_mem_of_not_mem hr hq).symm
  cases effect_of_exec h with
  | setsReg x b hx => rw [State.reg_setReg, if_neg (hne hx), State.reg_advance]
  | draws x b hx => exact (State.reg_setReg _ x b q).trans (if_neg (hne hx))
  | setsResultFlag x a f hx hf =>
    rw [State.reg_setResultFlag, if_neg (hne hf), if_neg (hne hx), State.reg_advance]
  | blits g f _ hf => rw [State.reg_setReg, if_neg (hne hf), State.reg_setDisp, State.reg_advance]
  | setsRegBlock bs hd =>
    have hlen : bs.length ≤ q.val := Nat.le_of_not_lt fun hlt => hq (hd q hlt)
    rw [State.reg_setRegBlock, List.getD_eq_default _ _ hlen, State.reg_advance]
  | skips | readsKey => simp
  | _ => rfl

/-- Settles O48: each effect that changes one of these parts names the instructions that have it. -/
theorem onlyTheNamedInstructionsChangeEachPart : Obligations.OnlyTheNamedInstructionsChangeEachPart := by
  intro i s t h
  cases effect_of_exec h with
  | setsI _ hk | readsKey _ _ hk =>
    simp only [List.mem_cons, List.not_mem_nil, or_false] at hk
    simp [hk]
  | setsDt _ hk | setsSt _ hk | clears _ hk | blits _ _ hk | pushes _ _ _ hk | pops _ _ hk => simp [hk]
  | _ => simp

end Sys2Proof.Machine
end

section
/-! ST and the remembered image are never read (10_state.md R22, R28): each shared operation, and so each instruction,
gives the same answer whatever they are. -/

namespace Sys2Proof.Machine

/-- `s` with another ST and another image. -/
def State.withStImage (b : Byte) (im : List Byte) (s : State) : State := { s with st := b, image := im }

variable {b : Byte} {im : List Byte} {s : State}

theorem advanceSkip_withStImage (c : Bool) :
    (s.withStImage b im).advanceSkip c = (s.advanceSkip c).withStImage b im := by
  cases c <;> rfl

theorem push_withStImage (a : Word) : push (s.withStImage b im) a = (push s a).map (State.withStImage b im) := by
  by_cases hfull : s.sp = 16
  · rw [show push s a = _ from if_pos hfull]
    exact if_pos hfull
  · by_cases hlt : s.sp.toNat < 16
    · rw [show push s a = _ from (if_neg hfull).trans (dif_pos hlt)]
      exact (if_neg hfull).trans (dif_pos hlt)
    · rw [show push s a = _ from (if_neg hfull).trans (dif_neg hlt)]
      exact (if_neg hfull).trans (dif_neg hlt)

theorem pop_withStImage : pop (s.withStImage b im) = (pop s).map (Prod.map id (State.withStImage b im)) := by
  by_cases hempty : s.sp = 0
  · rw [show pop s = _ from if_pos hempty]
    exact if_pos hempty
  · by_cases hlt : (s.sp - 1).toNat < 16
    · rw [show pop s = _ from (if_neg hempty).trans (dif_pos hlt)]
      exact (if_neg hempty).trans (dif_pos hlt)
    · rw [show pop s = _ from (if_neg hempty).trans (dif_neg hlt)]
      exact (if_neg hempty).trans (dif_neg hlt)

theorem reverseSubtract_withStImage (faults : Bool) (x y : Reg) :
    reverseSubtract faults x y (s.withStImage b im) = (reverseSubtract faults x y s).map (State.withStImage b im) := by
  by_cases h : faults = true ∧ (s.reg y).toNat < (s.reg x).toNat
  · rw [show reverseSubtract faults x y s = _ from if_pos h]
    exact if_pos h
  · rw [show reverseSubtract faults x y s = _ from if_neg h]
    exact if_neg h

/-- An instruction that can raise and whose result commutes with another ST and image ends in the same way: a fault
taken from the step's start keeps both. -/
theorem conclude_withStImage {i : Instr} {t : State} {r r' : Except Abort State}
    (hr : r' = r.map (State.withStImage b im)) (h : conclude s i r = .next t) :
    conclude (s.withStImage b im) i r' = .next (t.withStImage b im) := by
  subst hr
  rcases conclude_next h with rfl | ⟨c, d, rfl, rfl⟩ <;> rfl

/-- A result built from an answer that reads neither commutes if what is built does. -/
theorem map_withStImage {α : Type} {f g : α → State} (r : Except Abort α) (hfg : ∀ a, g a = (f a).withStImage b im) :
    r.map g = (r.map f).map (State.withStImage b im) := by
  cases r with
  | error e => rfl
  | ok a => exact congrArg Except.ok (hfg a)

/-- Every instruction but Fx18, which writes ST, gives the same next state with another ST and image. One with a fault
condition is split by the answer of the shared operation it rests on; a block, a key or a sprite row is found without
reading either. -/
theorem exec_withStImage {i : Instr} {t : State} (hk : i.kind ≠ .ldStVx) (h : exec i s = .next t) :
    exec i (s.withStImage b im) = .next (t.withStImage b im) := by
  cases i with
  | ldStVx => exact absurd rfl hk
  | call nnn =>
    have hpush : push (s.withStImage b im).advance (s.withStImage b im).advance.pc = _ :=
      push_withStImage (s := s.advance) s.advance.pc
    refine conclude_withStImage ?_ h
    rw [hpush]
    cases push s.advance s.advance.pc <;> rfl
  | ret =>
    have hpop : pop (s.withStImage b im).advance = _ := pop_withStImage (s := s.advance)
    refine conclude_withStImage ?_ h
    rw [hpop]
    cases pop s.advance <;> rfl
  | subn x y =>
    change conclude s (.subn x y) (reverseSubtract rsubUnderflowFaults x y s) = _ at h
    exact conclude_withStImage (reverseSubtract_withStImage ..) h
  | skp x | sknp x =>
    refine conclude_withStImage ?_ h
    exact map_withStImage _ fun k => advanceSkip_withStImage (s := s.setKey k false) _
  | drw | ldVxMem | ldBVx | ldMemVx =>
    refine conclude_withStImage ?_ h
    exact map_withStImage _ fun _ => rfl
  | seImm | sneImm | seReg | sneReg =>
    obtain rfl := Host.Outcome.next.inj h
    exact congrArg _ (advanceSkip_withStImage _)
  | _ =>
    obtain rfl := Host.Outcome.next.inj h
    rfl

/-- Settles O49: another ST and image pass through every instruction but Fx18, and another image through Fx18, whose next
state holds the ST it wrote. -/
theorem soundTimerAndImageAreNeverRead : Obligations.SoundTimerAndImageAreNeverRead := by
  intro i s t b im h
  cases i with
  | ldStVx x =>
    obtain rfl := Host.Outcome.next.inj h
    rfl
  | _ => exact exec_withStImage (by simp [Instr.kind]) h

end Sys2Proof.Machine
end

section
/-! The stack (10_state.md R24): Pop undoes Push, and CALL and RET stop the model at an SP the spec does not allow. -/

namespace Sys2Proof.Machine

/-- Push below a full stack. -/
theorem push_of_lt {s : State} (a : Word) (h : s.sp.toNat < 16) :
    push s a = .ok { s with stack := s.stack.set s.sp.toNat a, sp := s.sp + 1 } := by
  rcases push_cases s a with ⟨_, he⟩ | ⟨hsp, _⟩ | ⟨hsp, _⟩
  · exact he
  · rw [hsp] at h
    exact absurd h (by decide)
  · omega

/-- Pop with `sp + 1` for the pointer reads the slot at `sp` and restores the pointer. -/
theorem pop_of_pointer_succ {s : State} {sp : Byte} (hs : s.sp = sp + 1) (h : sp.toNat < 16) :
    pop s = .ok (s.stack[sp.toNat], { s with sp := sp }) := by
  obtain rfl : s.sp - 1 = sp := by rw [hs, BitVec.add_sub_cancel]
  have hpos : s.sp.toNat = (s.sp - 1).toNat + 1 := by rw [← toNat_pointer_succ h, ← hs]
  rcases pop_cases s with ⟨_, _, _, he⟩ | ⟨hsp, _⟩ | ⟨hsp, _⟩
  · exact he
  · rw [hsp] at hpos
    simp at hpos
  · omega

/-- Settles O52: Push writes slot SP and raises SP by one, and Pop reads that slot back. -/
theorem popUndoesPush : Obligations.PopUndoesPush := by
  intro s a h
  refine ⟨_, { s with stack := s.stack.set s.sp.toNat a }, push_of_lt a h, toNat_pointer_succ h, ?_, rfl, rfl,
    fun j hj => Vector.getElem_set_ne h j.isLt hj.symm⟩
  rw [pop_of_pointer_succ rfl h, Vector.getElem_set_self]

/-- Settles O45: at an SP above 16 neither Push nor Pop completes or raises. -/
theorem illegalStackPointerStopsCallAndRet : Obligations.IllegalStackPointerStopsCallAndRet := by
  intro s h
  constructor
  · intro nnn
    rcases execCall_cases nnn s with ⟨hsp, _⟩ | ⟨hsp, _⟩ | ⟨_, he⟩
    · omega
    · simp [hsp] at h
    · exact he
  · rcases execRet_cases s with ⟨j, hsp, _, _⟩ | ⟨hsp, _⟩ | ⟨_, he⟩
    · omega
    · simp [hsp] at h
    · exact he

end Sys2Proof.Machine
end

section
/-! Memory (20_memory.md): what a read gives after a write and after a block of writes, and that a canonical list holds
nothing but what its reads give. -/

namespace Sys2Proof.Machine

/-! ### A read after a write (R42, R45) -/

/-- A memory that lists no cell of an address reads there as after a reset. -/
theorem Memory.read_eq_unlistedByte {m : Memory} {a : Nat} (h : ∀ c ∈ m, c.1 ≠ a) : m.read a = unlistedByte a := by
  induction m with
  | nil => rfl
  | cons c m ih =>
    obtain ⟨hc, hm⟩ := List.forall_mem_cons.mp h
    rw [Memory.read, if_neg hc, ih hm]

/-- Dropping the cells of one address leaves the reads at every other. -/
theorem Memory.read_filter_ne (m : Memory) {a b : Nat} (h : b ≠ a) :
    Memory.read (m.filter fun c => c.1 != a) b = m.read b := by
  induction m with
  | nil => rfl
  | cons c m ih =>
    by_cases hc : c.1 = a
    · rw [List.filter_cons_of_neg (by simp [hc]), ih, Memory.read, if_neg (hc ▸ h.symm)]
    · rw [List.filter_cons_of_pos (by simp [hc]), Memory.read, Memory.read, ih]

/-- A cell inserted where its address has none is read there, whatever the order of the others. -/
theorem Memory.read_insertCell {m : Memory} {c : Host.Cell} (h : ∀ d ∈ m, d.1 ≠ c.1) (b : Nat) :
    (Memory.insertCell m c).read b = if c.1 = b then c.2 else m.read b := by
  induction m with
  | nil => rfl
  | cons d m ih =>
    obtain ⟨hd, hm⟩ := List.forall_mem_cons.mp h
    by_cases hlt : c.1 < d.1
    · rw [Memory.insertCell, if_pos hlt, Memory.read]
    · rw [Memory.insertCell, if_neg hlt, Memory.read, Memory.read, ih hm]
      by_cases hb : d.1 = b
      · rw [if_pos hb, if_pos hb, if_neg (hb ▸ hd.symm)]
      · rw [if_neg hb, if_neg hb]

/-- A write drops every cell of its address, so the cell it lists, or the reset byte where it lists none, is what the next
read there gives. -/
theorem Memory.read_write (m : Memory) (a b : Nat) (v : Byte) :
    (m.write a v).read b = if b = a then v else m.read b := by
  have hrest : ∀ c ∈ m.filter fun c => c.1 != a, c.1 ≠ a := fun c hc => by simpa using List.of_mem_filter hc
  by_cases hv : v = unlistedByte a
  · rw [Memory.write, if_pos hv]
    by_cases hb : b = a
    · rw [if_pos hb, hb, Memory.read_eq_unlistedByte hrest, hv]
    · rw [if_neg hb, Memory.read_filter_ne m hb]
  · rw [Memory.write, if_neg hv, Memory.read_insertCell hrest]
    by_cases hb : b = a
    · rw [if_pos hb, if_pos hb.symm]
    · rw [if_neg hb, if_neg (Ne.symm hb), Memory.read_filter_ne m hb]

/-- Settles O50: for any list of cells, canonical or not. -/
theorem memoryReadsTheLastWrite : Obligations.MemoryReadsTheLastWrite := Memory.read_write

/-! ### Canonical form (R33) -/

/-- The cells of a canonical list are the addresses whose read is no reset byte, each with that read. -/
theorem Memory.mem_iff_read {m : Memory} (h : m.wf = true) {c : Host.Cell} :
    c ∈ m ↔ c.2 ≠ unlistedByte c.1 ∧ m.read c.1 = c.2 := by
  induction m with
  | nil => simpa [Memory.read] using fun hne heq => hne heq.symm
  | cons d m ih =>
    obtain ⟨_, hd, hlt, hm⟩ := Memory.wf_cons.mp h
    rw [List.mem_cons, Memory.read]
    by_cases hc : d.1 = c.1
    · have hmem : c ∉ m := fun hcm => (hlt c hcm).ne hc
      rw [if_pos hc, or_iff_left hmem]
      constructor
      · rintro rfl
        exact ⟨hd, rfl⟩
      · exact fun ⟨_, hv⟩ => (Prod.ext hc hv).symm
    · have hne : c ≠ d := fun he => hc (he ▸ rfl)
      rw [if_neg hc, or_iff_right hne, ih hm]

/-- The addresses of a canonical list rise strictly. -/
theorem Memory.pairwise_of_wf {m : Memory} (h : m.wf = true) : m.Pairwise (fun c d => c.1 < d.1) := by
  induction m with
  | nil => exact .nil
  | cons c m ih =>
    obtain ⟨_, _, hlt, hm⟩ := Memory.wf_cons.mp h
    exact .cons hlt (ih hm)

/-- Settles O51: the reads fix the cells, and strictly rising addresses fix their order. -/
theorem canonicalMemoriesThatReadAlikeAreEqual : Obligations.CanonicalMemoriesThatReadAlikeAreEqual := by
  intro m n hm hn hread
  have : Std.Irrefl fun c d : Host.Cell => c.1 < d.1 := ⟨fun c => lt_irrefl c.1⟩
  refine (Memory.pairwise_of_wf hm).eq_of_mem_iff (Memory.pairwise_of_wf hn) fun c => ?_
  rw [Memory.mem_iff_read hm, Memory.mem_iff_read hn, hread]

/-! ### Which instructions change which bytes (R34, R45) -/

/-- A block of writes reads back byte by byte, and changes no byte outside the block. -/
theorem Memory.read_writeBytes (m : Memory) (a b : Nat) (bs : List Byte) :
    (m.writeBytes a bs).read b = if a ≤ b then bs.getD (b - a) (m.read b) else m.read b := by
  induction bs generalizing m a with
  | nil => simp [Memory.writeBytes]
  | cons v bs ih =>
    rw [Memory.writeBytes, ih, Memory.read_write]
    rcases lt_trichotomy b a with hlt | rfl | hgt
    · rw [if_neg (by omega), if_neg hlt.ne, if_neg (by omega)]
    · simp
    · have hsub : b - a = b - (a + 1) + 1 := by omega
      rw [if_pos (Nat.succ_le_of_lt hgt), if_neg hgt.ne', if_pos hgt.le, hsub, List.getD_cons_succ]

/-- A fault undoes the step's stores (40_cycle.md R65). -/
theorem keepsMemory_takeFault (s : State) (u : Option Word) (c : FaultKind) (d : FaultInfo) :
    KeepsMemory s (takeFault s u c d) := fun _ => rfl

/-- A store of a block changes no byte outside it. -/
theorem keepsMemoryOutside_store (s : State) (a : Nat) (bs : List Byte) :
    KeepsMemoryOutside a bs.length s (s.advance.setMem (s.mem.writeBytes a bs)) := by
  intro b hb
  rw [State.setMem_mem, Memory.read_writeBytes]
  by_cases hab : a ≤ b
  · rw [if_pos hab, List.getD_eq_default]
    omega
  · rw [if_neg hab]

/-- Fx33, whether it completes or takes a fault. -/
theorem keepsMemoryOutside_of_ldBVx {x : Reg} {s t : State} (h : exec (.ldBVx x) s = .next t) :
    KeepsMemoryOutside s.blockBase 3 s t := by
  rcases execLdBVx_cases x s with ⟨_, he⟩ | ⟨_, he⟩ <;> obtain rfl := Host.Outcome.next.inj (he.symm.trans h)
  · exact keepsMemoryOutside_store s _ (decimalDigits (s.reg x))
  · exact fun b _ => keepsMemory_takeFault s _ _ _ b

/-- Fx55, whether it completes or takes a fault. -/
theorem keepsMemoryOutside_of_ldMemVx {x : Reg} {s t : State} (h : exec (.ldMemVx x) s = .next t) :
    KeepsMemoryOutside s.blockBase (x.val + 1) s t := by
  rcases execLdMemVx_cases x s with ⟨_, he⟩ | ⟨_, he⟩ <;> obtain rfl := Host.Outcome.next.inj (he.symm.trans h)
  · exact length_regBlock s x ▸ keepsMemoryOutside_store s _ (s.regBlock x)
  · exact fun b _ => keepsMemory_takeFault s _ _ _ b

/-- No other instruction changes a byte, whether it completes or takes a fault. An instruction with a fault condition is
split by what it can answer; each of the others answers one next state, by definition. -/
theorem keepsMemory_of_exec {i : Instr} {s t : State} (hb : ∀ x, i ≠ .ldBVx x) (hm : ∀ x, i ≠ .ldMemVx x)
    (h : exec i s = .next t) : KeepsMemory s t := by
  intro a
  cases i with
  | ldBVx x => exact absurd rfl (hb x)
  | ldMemVx x => exact absurd rfl (hm x)
  | call nnn => rcases execCall_cases nnn s with ⟨_, he⟩ | ⟨_, he⟩ | ⟨_, he⟩ <;> cases he.symm.trans h <;> rfl
  | ret => rcases execRet_cases s with ⟨_, _, _, he⟩ | ⟨_, he⟩ | ⟨_, he⟩ <;> cases he.symm.trans h <;> rfl
  | skp x => rcases execSkp_cases x s with ⟨_, he⟩ | ⟨_, he⟩ <;> cases he.symm.trans h <;> simp
  | sknp x => rcases execSknp_cases x s with ⟨_, he⟩ | ⟨_, he⟩ <;> cases he.symm.trans h <;> simp
  | subn x y => rcases execSubn_cases x y s with ⟨_, _, he⟩ | he <;> cases he.symm.trans h <;> rfl
  | drw x y n => rcases execDrw_cases x y n s with ⟨_, _, _, he⟩ | ⟨_, _, he⟩ <;> cases he.symm.trans h <;> rfl
  | ldVxMem x => rcases execLdVxMem_cases x s with ⟨_, he⟩ | ⟨_, he⟩ <;> cases he.symm.trans h <;> rfl
  | seImm | sneImm | seReg | sneReg =>
    cases h
    rw [State.advanceSkip_mem]
  | _ =>
    cases h
    rfl

/-- Settles O47: the two stores by the frame of a block of writes, every other instruction by what it can answer. -/
theorem onlyStoresChangeMemory : Obligations.OnlyStoresChangeMemory := by
  refine fun i s t h => ⟨?_, ?_, fun hb hm => keepsMemory_of_exec hb hm h⟩
  · rintro x rfl
    exact keepsMemoryOutside_of_ldBVx h
  · rintro x rfl
    exact keepsMemoryOutside_of_ldMemVx h

end Sys2Proof.Machine
end

section
/-! The encoding (30_encoding.md section 2): the decoder and the encoder are inverse to each other, and both agree with the
opcode table and with the list of the invalid words. -/

namespace Sys2Proof

open Laws

/-! ### A word put together again from its fields (R53, R54) -/

theorem formatNNN_of_fields {w : Word} {op : Nat} (hop : opOf w = op) : formatNNN op (nnnOf w) = w := by
  have := w.isLt
  rw [opOf_eq] at hop
  apply BitVec.eq_of_toNat_eq
  rw [formatNNN_toNat (by omega), nnnOf_toNat]
  omega

theorem formatXKK_of_fields {w : Word} {op : Nat} (hop : opOf w = op) : formatXKK op (xOf w) (kkOf w) = w := by
  have := w.isLt
  rw [opOf_eq] at hop
  apply BitVec.eq_of_toNat_eq
  rw [formatXKK_toNat (by omega), xOf_val, kkOf_toNat]
  omega

theorem formatXS_of_fields {w : Word} {op k : Nat} (hop : opOf w = op) (hk : field w 7 0 = k) :
    formatXKK op (xOf w) (BitVec.ofNat 8 k) = w := by
  rw [← hk]
  exact formatXKK_of_fields hop

theorem formatXYN_of_fields {w : Word} {op n : Nat} (hop : opOf w = op) (hn : nOf w = n) :
    formatXYN op (xOf w) (yOf w) n = w := by
  have := w.isLt
  rw [opOf_eq] at hop
  rw [nOf_eq] at hn
  apply BitVec.eq_of_toNat_eq
  rw [formatXYN_toNat (by omega), xOf_val, yOf_val]
  omega

theorem opOf_lt (w : Word) : opOf w < 16 := Nat.mod_lt _ (by decide)

theorem nOf_lt (w : Word) : nOf w < 16 := Nat.mod_lt _ (by decide)

theorem addressFits_nnnOf (w : Word) : addressFits (nnnOf w) = true :=
  decide_eq_true (nnnOf_toNat w ▸ Nat.mod_lt _ (by decide))

theorem lengthFits_nOf (w : Word) : lengthFits (nOf w) = true := decide_eq_true (nOf_lt w)

/-! ### The round trip (R54, R56, R57) -/

/-- Settles O1: format by format, the fields of the encoded word are the operands and the numbers the decoder asks for. -/
theorem decodeOfEncodeIsTheInstruction : Obligations.DecodeOfEncodeIsTheInstruction := by
  intro i h
  cases i with
  | cls | ret => rfl
  | jp nnn | call nnn | ldI nnn | jpV0 nnn =>
    have hn : nnn.toNat < 4096 := of_decide_eq_true h
    simp [encode, decode, opOf_formatNNN, nnnOf_formatNNN, hn]
  | seImm | sneImm | ldImm | addImm | rnd =>
    simp [encode, decode, opOf_formatXKK, xOf_formatXKK, kkOf_formatXKK]
  | seReg | sneReg => simp [encode, decode, opOf_formatXYN, xOf_formatXYN, yOf_formatXYN, nOf_formatXYN]
  | ldReg | orReg | andReg | xorReg | addReg | subReg | shr | subn | shl =>
    simp [encode, decode, decodeAlu, opOf_formatXYN, xOf_formatXYN, yOf_formatXYN, nOf_formatXYN]
  | drw x y n =>
    have hn : n % 16 = n := Nat.mod_eq_of_lt (of_decide_eq_true h)
    simp [encode, decode, opOf_formatXYN, xOf_formatXYN, yOf_formatXYN, nOf_formatXYN, hn]
  | skp | sknp => simp [encode, decode, opOf_formatXKK, xOf_formatXKK, lowField_formatXKK]
  | ldVxDt | ldVxK | ldDtVx | ldStVx | addIVx | ldFVx | ldBVx | ldMemVx | ldVxMem =>
    simp [encode, decode, decodeMisc, opOf_formatXKK, xOf_formatXKK, lowField_formatXKK]

theorem encode_of_decodeAlu {w : Word} {i : Instr} (hop : opOf w = 8) (h : decodeAlu w = .instr i) :
    encode i = w ∧ i.wellFormed = true := by
  unfold decodeAlu at h
  split at h <;> cases h
  all_goals exact ⟨formatXYN_of_fields hop ‹_›, rfl⟩

theorem encode_of_decodeMisc {w : Word} {i : Instr} (hop : opOf w = 0xF) (h : decodeMisc w = .instr i) :
    encode i = w ∧ i.wellFormed = true := by
  unfold decodeMisc at h
  split at h <;> cases h
  all_goals exact ⟨formatXS_of_fields hop ‹_›, rfl⟩

/-- Settles O2: family by family, the word put together from the fields the decoder reads is the word. -/
theorem encodeOfDecodeIsTheWord : Obligations.EncodeOfDecodeIsTheWord := by
  intro w i
  unfold decode
  match hop : opOf w with
  | 0x0 =>
    simp only
    split_ifs with hcls hret <;> rintro ⟨⟩
    · exact ⟨hcls.symm, rfl⟩
    · exact ⟨hret.symm, rfl⟩
  | 0x1 | 0x2 | 0xA | 0xB =>
    rintro ⟨⟩
    exact ⟨formatNNN_of_fields hop, addressFits_nnnOf w⟩
  | 0x3 | 0x4 | 0x6 | 0x7 | 0xC =>
    rintro ⟨⟩
    exact ⟨formatXKK_of_fields hop, rfl⟩
  | 0x5 | 0x9 =>
    simp only
    split_ifs with hn <;> rintro ⟨⟩
    exact ⟨formatXYN_of_fields hop hn, rfl⟩
  | 0x8 => exact encode_of_decodeAlu hop
  | 0xD =>
    rintro ⟨⟩
    exact ⟨formatXYN_of_fields hop rfl, lengthFits_nOf w⟩
  | 0xE =>
    simp only
    split_ifs with hk hk <;> rintro ⟨⟩
    all_goals exact ⟨formatXS_of_fields hop hk, rfl⟩
  | 0xF => exact encode_of_decodeMisc hop
  | _ + 16 => rintro ⟨⟩

/-! ### The opcode table (R55) -/

/-- The word of every instruction matches the table's row for its kind. -/
theorem tableRow_statement (i : Instr) : TableRow.Statement i := by
  cases i
  exacts [TableRow.cls, TableRow.ret, TableRow.jp _, TableRow.call _, TableRow.seImm _ _, TableRow.sneImm _ _,
    TableRow.seReg _ _, TableRow.ldImm _ _, TableRow.addImm _ _, TableRow.ldReg _ _, TableRow.orReg _ _,
    TableRow.andReg _ _, TableRow.xorReg _ _, TableRow.addReg _ _, TableRow.subReg _ _, TableRow.shr _ _,
    TableRow.subn _ _, TableRow.shl _ _, TableRow.sneReg _ _, TableRow.ldI _, TableRow.jpV0 _, TableRow.rnd _ _,
    TableRow.drw _ _ _, TableRow.skp _, TableRow.sknp _, TableRow.ldVxDt _, TableRow.ldVxK _, TableRow.ldDtVx _,
    TableRow.ldStVx _, TableRow.addIVx _, TableRow.ldFVx _, TableRow.ldBVx _, TableRow.ldMemVx _, TableRow.ldVxMem _]

/-- No kind has two rows. -/
theorem lookup_of_mem_opcodeTable : ∀ row ∈ opcodeTable, opcodeTable.lookup row.1 = some row.2 := by decide

theorem opOf_of_mask_F000 {w v : Word} (h : w &&& 0xF000 = v) : opOf w = v.toNat / 4096 := by
  rw [opOf_eq, ← h, and_family]
  omega

theorem fields_of_mask_F00F {w v : Word} (h : w &&& 0xF00F = v) : opOf w = v.toNat / 4096 ∧ nOf w = v.toNat % 16 := by
  rw [opOf_eq, nOf_eq, ← h, and_F00F]
  omega

theorem fields_of_mask_F0FF {w v : Word} (h : w &&& 0xF0FF = v) :
    opOf w = v.toNat / 4096 ∧ field w 7 0 = v.toNat % 256 := by
  rw [opOf_eq, lowField_eq, ← h, and_F0FF]
  omega

/-- A word that matches the row of a kind decodes to that kind: the row's mask fixes the fields the decoder asks for. -/
theorem exists_decode_of_row {w mask value : Word} {k : InstrKind} (hrow : opcodeTable.lookup k = some (mask, value))
    (h : w &&& mask = value) : ∃ i, decode w = .instr i ∧ i.kind = k := by
  cases k with
  | cls | ret =>
    cases hrow
    obtain rfl := BitVec.and_allOnes.symm.trans h
    exact ⟨_, rfl, rfl⟩
  | jp | call | ldI | jpV0 | seImm | sneImm | ldImm | addImm | rnd | drw =>
    cases hrow
    simp [decode, opOf_of_mask_F000 h, Instr.kind]
  | seReg | sneReg =>
    cases hrow
    obtain ⟨hop, hn⟩ := fields_of_mask_F00F h
    simp [decode, hop, hn, Instr.kind]
  | ldReg | orReg | andReg | xorReg | addReg | subReg | shr | subn | shl =>
    cases hrow
    obtain ⟨hop, hn⟩ := fields_of_mask_F00F h
    simp [decode, decodeAlu, hop, hn, Instr.kind]
  | skp | sknp =>
    cases hrow
    obtain ⟨hop, hk⟩ := fields_of_mask_F0FF h
    simp [decode, hop, hk, Instr.kind]
  | ldVxDt | ldVxK | ldDtVx | ldStVx | addIVx | ldFVx | ldBVx | ldMemVx | ldVxMem =>
    cases hrow
    obtain ⟨hop, hk⟩ := fields_of_mask_F0FF h
    simp [decode, decodeMisc, hop, hk, Instr.kind]

/-- Settles O3: a word that decodes is the encoding of what it decodes to, which matches its row. -/
theorem decoderFollowsTheOpcodeTable : Obligations.DecoderFollowsTheOpcodeTable := by
  intro w k
  constructor
  · rintro ⟨i, hi, rfl⟩
    obtain ⟨rfl, _⟩ := encodeOfDecodeIsTheWord w i hi
    exact tableRow_statement i
  · rintro ⟨row, hmem, rfl, h⟩
    exact exists_decode_of_row (lookup_of_mem_opcodeTable row hmem) h

/-! ### The invalid words (R58) -/

theorem decodeAlu_eq_invalid_iff (w : Word) : decodeAlu w = .invalid w ↔ nOf w ∈ [8, 9, 0xA, 0xB, 0xC, 0xD, 0xF] := by
  unfold decodeAlu
  match nOf w, nOf_lt w with
  | 0x0, _ | 0x1, _ | 0x2, _ | 0x3, _ | 0x4, _ | 0x5, _ | 0x6, _ | 0x7, _ | 0xE, _ => simp
  | 0x8, _ | 0x9, _ | 0xA, _ | 0xB, _ | 0xC, _ | 0xD, _ | 0xF, _ => simp
  | _ + 16, hlt => omega

theorem decodeMisc_eq_invalid_iff (w : Word) :
    decodeMisc w = .invalid w ↔ field w 7 0 ∉ [0x07, 0x0A, 0x15, 0x18, 0x1E, 0x29, 0x33, 0x55, 0x65] := by
  unfold decodeMisc
  split <;> simp_all

/-- Settles O4: family by family, one set of the list for each family that has an invalid word. -/
theorem invalidWordsAreTheListedOnes : Obligations.InvalidWordsAreTheListedOnes := by
  intro w
  have hzero : w.toNat ≤ 0x0FFF ↔ opOf w = 0 := by
    rw [opOf_eq]
    omega
  rw [hzero, ← opOf_eq, ← nOf_eq, ← lowField_eq]
  unfold decode
  match opOf w, opOf_lt w with
  | 0x0, _ => simp [ite_eq_iff]
  | 0x1, _ | 0x2, _ | 0x3, _ | 0x4, _ | 0x6, _ | 0x7, _ | 0xA, _ | 0xB, _ | 0xC, _ | 0xD, _ => simp
  | 0x5, _ | 0x9, _ => simp
  | 0x8, _ => simp [decodeAlu_eq_invalid_iff]
  | 0xE, _ => simp [ite_eq_iff]
  | 0xF, _ => simp [decodeMisc_eq_invalid_iff]
  | _ + 16, hlt => omega

/-- Settles O5: nine closed evaluations of the decoder. -/
theorem sampleWordsDecode : Obligations.SampleWordsDecode := by
  unfold Obligations.SampleWordsDecode
  decide

end Sys2Proof
end

section
/-! What each kind of step answers (40_cycle.md R64 to R71, R75): the fetch, an instruction and its report, a poll, a latched
fault. -/

namespace Sys2Proof.Machine

/-! ### The step of each mode -/

/-- A step on a word of a known shape, its report left out. -/
theorem stepWith_run {s : State} {i : Instr} {p : Parameters} (h : s.AboutToRun i) : stepWith p s = execWith p i s := by
  rw [stepWith, instructionStep_run h, dropReport_reportExec]

theorem step_run {s : State} {i : Instr} (h : s.AboutToRun i) : step s = exec i s :=
  (stepWith_run h).trans (execWith_default i s)

theorem instructionStep_waitKey {s : State} {x : Reg} (p : Parameters) (h : s.mode = .waitKey x) :
    instructionStep s p = .next (pollKeys x s, .ok Config.waitPollCost) := by
  rw [instructionStep, h]

theorem instructionStep_faulted {s : State} {r : FaultRecord} (p : Parameters) (h : s.mode = .faulted r) :
    instructionStep s p = .next (s, .fault r) := by
  rw [instructionStep, h]

/-- What `instructionStep` answers, `stepWith` answers without the report. -/
theorem stepWith_of_instructionStep {s t : State} {p : Parameters} {r : StepResult}
    (h : instructionStep s p = .next (t, r)) : stepWith p s = .next t := by
  rw [stepWith, h, dropReport]

/-- A fetch out of range faults with the first address out of range (R66). -/
theorem step_of_fetch_outOfRange {s : State} (hrun : s.mode = .run) (h : ¬s.pc.toNat + 2 ≤ 4096) :
    step s = .next (latched s .addressOutOfRange 2 none (.address (max s.pc.toNat 4096))) := by
  rcases step_cases s with ⟨_, hi, _⟩ | ⟨_, _, he⟩ | ⟨_, hf, _⟩ | ⟨x, hx, _⟩ | ⟨r, hr, _⟩
  · exact absurd hi.fetchable h
  · exact he
  · exact absurd hf h
  · cases hrun.symm.trans hx
  · cases hrun.symm.trans hr

/-! ### Costs and reports (R63, R71) -/

theorem kind_eq_ldVxK_iff {i : Instr} : i.kind = .ldVxK ↔ ∃ x, i = .ldVxK x := by
  cases i <;> simp [Instr.kind]

theorem cost_eq_of_kind_eq {i j : Instr} (h : i.kind = j.kind) : cost i = cost j := by
  rw [cost, cost, h]

theorem cost_of_kind_ne_ldVxK {i : Instr} (h : i.kind ≠ .ldVxK) : cost i = Config.cost i.kind := by
  unfold cost
  split
  · contradiction
  · rfl

theorem report_of_notFaulted {t : State} (h : t.notFaulted = true) (c : Nat) : report t c = .ok c := by
  cases hm : t.mode <;> simp_all [report, State.notFaulted]

theorem report_of_faulted {t : State} {r : FaultRecord} (h : t.mode = .faulted r) (c : Nat) : report t c = .fault r := by
  rw [report, h]

/-- What an instruction's report is if it answers a next state. -/
theorem reportExec_next {i : Instr} {o : Host.Outcome State Fault Refusal} {t : State} {r : StepResult}
    (h : reportExec i o = .next (t, r)) : o = .next t ∧ r = report t (cost i) := by
  cases o with
  | next u =>
    obtain ⟨rfl, rfl⟩ := Prod.mk.inj (Host.Outcome.next.inj h)
    exact ⟨rfl, rfl⟩
  | fault f => cases h
  | refused q => cases h

/-! ### The self-loop (R75) -/

/-- The word of JP to an address that fits its field. -/
theorem encode_jp {a : Word} (h : a.toNat < 4096) : encode (.jp a) = 0x1000 ||| a := by
  apply BitVec.eq_of_toNat_eq
  rw [encode, formatNNN_toNat (by decide), BitVec.toNat_or, Nat.mod_eq_of_lt h]
  exact Nat.two_pow_add_eq_or_of_lt (i := 12) h 1

/-- A word at PC that jumps to PC is about to run as such. -/
theorem aboutToRun_selfLoop {s : State} (hrun : s.mode = .run) (hpc : s.pc.toNat ≤ 0xFFE)
    (hw : s.wordAtPc = 0x1000 ||| s.pc) : s.AboutToRun (.jp s.pc) := by
  have hlt : s.pc.toNat < 4096 := by omega
  refine ⟨hrun, by omega, ?_⟩
  rw [hw, ← encode_jp hlt]
  exact decodeOfEncodeIsTheInstruction _ (decide_eq_true hlt)

/-! ### The obligations -/

/-- Settles O35: `instructionStep_run`, and `execWith` differs from `exec` on 8xy7 alone. -/
theorem stepRunsTheDecodedInstruction : Obligations.StepRunsTheDecodedInstruction := by
  intro s i h
  refine ⟨step_run h, by rw [instructionStep_run h, execWith_default], fun p => ⟨stepWith_run h, instructionStep_run h, ?_⟩⟩
  rintro (rfl | hne)
  · exact execWith_default i s
  · exact execWith_of_ne_subn hne

/-- Settles O36: the fetch in range, and the first address out of range where it is not. -/
theorem fetchReadsABigEndianPairOrFaults : Obligations.FetchReadsABigEndianPairOrFaults := by
  intro s hrun
  refine ⟨fun h => ?_, fun h => ?_, fun h => ?_⟩
  · rw [fetchWord_inRange h, ← bigEndian_toNat, BitVec.ofNat_toNat, BitVec.setWidth_eq]
  · rw [step_of_fetch_outOfRange hrun (by omega), Nat.max_eq_left h]
  · rw [step_of_fetch_outOfRange hrun (by rw [h]; decide), h]
    rfl

/-- Settles O39: in mode `faulted` the step answers the state it began in and the latched record. -/
theorem faultedStepChangesNothing : Obligations.FaultedStepChangesNothing := fun _ _ h =>
  ⟨instructionStep_faulted _ h, stepWith_of_instructionStep (instructionStep_faulted _ h)⟩

/-- Settles O40: the cost by the kind, the report by whether the step ended with a fault latched. -/
theorem costIsAConstantOfTheKind : Obligations.CostIsAConstantOfTheKind := by
  refine ⟨fun _ _ => cost_eq_of_kind_eq, fun _ => rfl, fun i hne => cost_of_kind_ne_ldVxK fun hk => ?_,
    fun s t i r hi h => ?_⟩
  · obtain ⟨x, hx⟩ := kind_eq_ldVxK_iff.mp hk
    exact hne x hx
  · rw [instructionStep_run hi] at h
    obtain ⟨_, rfl⟩ := reportExec_next h
    exact ⟨fun hn => report_of_notFaulted hn _, fun rec hm => report_of_faulted hm _⟩

/-- Settles O41: the step runs JP, which writes PC back to where it was. -/
theorem selfLoopIsAFixedPoint : Obligations.SelfLoopIsAFixedPoint := by
  intro s hrun hpc hw
  have hjp : exec (.jp s.pc) s = .next s := rfl
  rw [instructionStep_run (aboutToRun_selfLoop hrun hpc hw), execWith_default, hjp, reportExec,
    report_of_notFaulted (by rw [State.notFaulted, hrun])]
  rfl

end Sys2Proof.Machine
end

section
/-! The mode (40_cycle.md R64, R69): what a poll writes, and the mode in which each step ends. -/

namespace Sys2Proof.Machine

/-! ### The poll of a key wait -/

theorem pollKeys_of_lowest {s : State} {k : Fin 16} (x : Reg) (hk : s.key[k.val] = true)
    (hlow : ∀ j : Fin 16, j < k → s.key[j.val] = false) :
    pollKeys x s = ((s.setKey k false).setReg x (BitVec.ofNat 8 k.val)).setMode .run := by
  rw [pollKeys, lowestLatched_eq_some.mpr ⟨hk, hlow⟩]
  rfl

theorem pollKeys_of_noKey {s : State} (x : Reg) (h : ∀ j : Fin 16, s.key[j.val] = false) : pollKeys x s = s := by
  rw [pollKeys, lowestLatched_eq_none.mpr h]

theorem anyKey_eq_true_iff {s : State} : s.anyKey = true ↔ ∃ j : Fin 16, s.key[j.val] = true := by
  simp [State.anyKey, Vector.any_eq_true, Fin.exists_iff]

/-- A poll ends the wait if some key is latched. -/
theorem mode_pollKeys (x : Reg) (s : State) : (pollKeys x s).mode = if s.anyKey then .run else s.mode := by
  rcases pollKeys_cases x s with ⟨k, hk, _, he⟩ | ⟨hnone, he⟩
  · rw [he, State.setMode_mode, if_pos (anyKey_eq_true_iff.mpr ⟨k, hk⟩)]
  · have hno : ¬s.anyKey = true := by simp [anyKey_eq_true_iff, hnone]
    rw [he, if_neg hno]

/-- Settles O38: the two answers of a poll, field by field. -/
theorem pollConsumesTheLowestKey : Obligations.PollConsumesTheLowestKey := by
  intro s x hm
  refine ⟨fun k hk hlow => ⟨_, instructionStep_waitKey _ hm, ?_⟩, fun hnone => ?_⟩
  · rw [pollKeys_of_lowest x hk hlow]
    have hval : (BitVec.ofNat 8 k.val).toNat = k.val := by
      rw [BitVec.toNat_ofNat]
      omega
    refine ⟨by simpa using hval, rfl, rfl, s.key_setKey k false, fun r hr => ?_, fun _ => rfl, rfl, ⟨rfl, rfl⟩, rfl, ⟨rfl, rfl⟩, rfl, rfl⟩
    have hne : r ≠ x := by simpa using hr
    simp [hne]
  · rw [instructionStep_waitKey _ hm, pollKeys_of_noKey x hnone]

/-! ### The mode in which an instruction ends -/

/-- The mode in which an instruction can end: the one it began in, a key wait by Fx0A alone, or a fault. -/
inductive EndsInMode (i : Instr) (s t : State) : Prop
  | keeps (h : t.mode = s.mode)
  | waits (x : Reg) (hi : i = .ldVxK x) (h : t.mode = .waitKey x)
  | faults (r : FaultRecord) (h : t.mode = .faulted r)

/-- Under any parameters an instruction answers a next state, in one of these modes, unless SP is no legal value. An
instruction with a fault condition is split by what it can answer; each of the others answers one next state, by
definition. -/
theorem execWith_mode_cases (p : Parameters) (i : Instr) (s : State) :
    (16 < s.sp.toNat ∧ ∃ f, execWith p i s = .fault f) ∨ ∃ t, execWith p i s = .next t ∧ EndsInMode i s t := by
  cases i with
  | ldVxK x => exact .inr ⟨_, rfl, .waits x rfl rfl⟩
  | call nnn =>
    rcases execCall_cases nnn s with ⟨_, he⟩ | ⟨_, he⟩ | ⟨h, he⟩
    · exact .inr ⟨_, he, .keeps rfl⟩
    · exact .inr ⟨_, he, .faults _ rfl⟩
    · exact .inl ⟨h, _, he⟩
  | ret =>
    rcases execRet_cases s with ⟨_, _, _, he⟩ | ⟨_, he⟩ | ⟨h, he⟩
    · exact .inr ⟨_, he, .keeps rfl⟩
    · exact .inr ⟨_, he, .faults _ rfl⟩
    · exact .inl ⟨h, _, he⟩
  | skp x =>
    rcases execSkp_cases x s with ⟨_, he⟩ | ⟨_, he⟩
    · exact .inr ⟨_, he, .keeps (State.advanceSkip_mode ..)⟩
    · exact .inr ⟨_, he, .faults _ rfl⟩
  | sknp x =>
    rcases execSknp_cases x s with ⟨_, he⟩ | ⟨_, he⟩
    · exact .inr ⟨_, he, .keeps (State.advanceSkip_mode ..)⟩
    · exact .inr ⟨_, he, .faults _ rfl⟩
  | subn x y =>
    rcases reverseSubtract_cases p.rsubFaults x y s with ⟨_, _, he⟩ | he
    · exact .inr ⟨_, he, .faults _ rfl⟩
    · exact .inr ⟨_, he, .keeps rfl⟩
  | drw x y n =>
    rcases execDrw_cases x y n s with ⟨_, _, _, he⟩ | ⟨_, _, he⟩
    · exact .inr ⟨_, he, .keeps rfl⟩
    · exact .inr ⟨_, he, .faults _ rfl⟩
  | ldBVx x =>
    rcases execLdBVx_cases x s with ⟨_, he⟩ | ⟨_, he⟩
    · exact .inr ⟨_, he, .keeps rfl⟩
    · exact .inr ⟨_, he, .faults _ rfl⟩
  | ldMemVx x =>
    rcases execLdMemVx_cases x s with ⟨_, he⟩ | ⟨_, he⟩
    · exact .inr ⟨_, he, .keeps rfl⟩
    · exact .inr ⟨_, he, .faults _ rfl⟩
  | ldVxMem x =>
    rcases execLdVxMem_cases x s with ⟨_, he⟩ | ⟨_, he⟩
    · exact .inr ⟨_, he, .keeps rfl⟩
    · exact .inr ⟨_, he, .faults _ rfl⟩
  | seImm | sneImm | seReg | sneReg => exact .inr ⟨_, rfl, .keeps (State.advanceSkip_mode ..)⟩
  | _ => exact .inr ⟨_, rfl, .keeps rfl⟩

/-- The mode in which an instruction did end. -/
theorem endsInMode_of_exec {i : Instr} {s t : State} (h : exec i s = .next t) : EndsInMode i s t := by
  rw [← execWith_default] at h
  rcases execWith_mode_cases .default i s with ⟨_, f, he⟩ | ⟨u, he, hmode⟩
  · cases he.symm.trans h
  · obtain rfl : u = t := Host.Outcome.next.inj (he.symm.trans h)
    exact hmode

/-! ### The mode in which a step ends (R64) -/

/-- The row of mode `run`. -/
theorem mode_of_step_run {s t : State} (hrun : s.mode = .run) (h : step s = .next t) :
    t.mode = .run ∨ (∃ x, s.AboutToRun (.ldVxK x) ∧ t.mode = .waitKey x) ∨ ∃ r, t.mode = .faulted r := by
  rcases step_cases s with ⟨i, hi, he⟩ | ⟨_, _, he⟩ | ⟨_, _, _, _, he⟩ | ⟨x, hx, _⟩ | ⟨r, hr, _⟩
  · cases endsInMode_of_exec (he.symm.trans h) with
    | keeps hm => exact .inl (hm.trans hrun)
    | waits x hx hm => exact .inr (.inl ⟨x, hx ▸ hi, hm⟩)
    | faults r hm => exact .inr (.inr ⟨r, hm⟩)
  · obtain rfl := Host.Outcome.next.inj (he.symm.trans h)
    exact .inr (.inr ⟨_, rfl⟩)
  · obtain rfl := Host.Outcome.next.inj (he.symm.trans h)
    exact .inr (.inr ⟨_, rfl⟩)
  · cases hrun.symm.trans hx
  · cases hrun.symm.trans hr

/-- Settles O42: one row of the table for each mode, and the start of a wait. -/
theorem modeTransitionsOfAStep : Obligations.ModeTransitionsOfAStep := by
  intro s t h
  have hnext {u : State} (hu : step s = .next u) : t = u := Host.Outcome.next.inj (h.symm.trans hu)
  refine ⟨fun hrun => mode_of_step_run hrun h, fun x hi => ?_, fun x hm => ?_, fun r hm => ?_⟩
  · obtain rfl : t = s.advance.setMode (.waitKey x) := hnext (step_run hi)
    rfl
  · rw [hnext (stepWith_of_instructionStep (instructionStep_waitKey _ hm)), mode_pollKeys, hm]
  · rw [hnext (stepWith_of_instructionStep (instructionStep_faulted _ hm)), hm]

end Sys2Proof.Machine
end

section
/-! The host's operations (40_cycle.md R62) and the runs under a schedule of them (R73): each keeps the invariant, and each
within the host's duties (R74) answers a next state. -/

namespace Sys2Proof.Machine

/-! ### What an operation answers -/

theorem silent_next {o : Host.Outcome State Fault Refusal} {t : State} {r : HostResult} (h : silent o = .next (t, r)) :
    o = .next t := by
  cases o with
  | next u => rw [(Prod.mk.inj (Host.Outcome.next.inj h)).1]
  | fault f => cases h
  | refused q => cases h

theorem reportStep_next {o : Host.Outcome (State × StepResult) Fault Refusal} {t : State} {r : HostResult}
    (h : reportStep o = .next (t, r)) : ∃ c, o = .next (t, c) := by
  cases o with
  | next u => exact ⟨u.2, by rw [← (Prod.mk.inj (Host.Outcome.next.inj h)).1]⟩
  | fault f => cases h
  | refused q => cases h

/-- A load is taken if the image fits, and is then a reset with that image. -/
theorem hostLoad_next {bytes : List Byte} {s t : State} {p : Parameters} (h : hostLoad bytes s p = .next t) :
    bytes.length ≤ maxImage ∧ t = hostReset { s with image := bytes } p := by
  unfold hostLoad at h
  split at h
  · exact ⟨‹_›, (Host.Outcome.next.inj h).symm⟩
  · cases h

/-- A key edge is taken if the index names a key, and writes its latch. -/
theorem hostKey_next {k : Nat} {down : Bool} {s t : State} (h : hostKey k down s = .next t) :
    ∃ hk : k < 16, t = s.setKey ⟨k, hk⟩ down := by
  unfold hostKey at h
  split at h
  · exact ⟨‹_›, (Host.Outcome.next.inj h).symm⟩
  · cases h

/-- A run that ends has a first operation that answered, and a run of the rest from there. -/
theorem runSchedule_cons_next {op : HostOp} {ops : List HostOp} {s u : State} {p : Parameters} {rs : List HostResult} :
    runSchedule (op :: ops) s p = .next (u, rs) ↔
      ∃ t r rs', hostOp op s p = .next (t, r) ∧ runSchedule ops t p = .next (u, rs') ∧ rs = r :: rs' := by
  constructor
  · intro h
    rw [runSchedule] at h
    split at h
    · split at h
      · obtain ⟨rfl, rfl⟩ := Prod.mk.inj (Host.Outcome.next.inj h)
        exact ⟨_, _, _, ‹_›, ‹_›, rfl⟩
      · cases h
      · cases h
    · cases h
    · cases h
  · rintro ⟨t, r, rs', hop, hrest, rfl⟩
    simp [runSchedule, hop, hrest]

/-! ### The invariant -/

/-- Under any parameters the next state of an instruction is one of its effects: 8xy7, which alone reads a parameter, has
the record of its fault well formed at either value. -/
theorem effect_of_execWith {p : Parameters} {i : Instr} {s t : State} (h : execWith p i s = .next t) :
    ExecEffect i s t := by
  cases i with
  | subn x y =>
    rcases reverseSubtract_cases p.rsubFaults x y s with ⟨_, hlt, he⟩ | he
    · exact .of_next h he (.faults _ _ (takeFault_arithmeticUnderflow_ok _ _ hlt))
    · exact .of_next h he (.setsResultFlag _ _ _ (by simp [destinations]) (by simp [destinations]))
  | _ => exact effect_of_exec h

/-- A step under any parameters keeps the invariant. -/
theorem State.Inv.of_stepWith {p : Parameters} {s t : State} (hs : s.Inv) (h : stepWith p s = .next t) : t.Inv := by
  rcases stepWith_cases p s with ⟨i, hi, he⟩ | ⟨_, _, he⟩ | ⟨_, _, w, _, he⟩ | ⟨x, _, he⟩ | ⟨_, _, he⟩ <;> rw [he] at h
  · exact hs.of_effect hi.mode (effect_of_execWith h)
  all_goals obtain rfl := Host.Outcome.next.inj h
  · exact hs.takeFault (takeFault_addressOutOfRange_ok ..)
  · exact hs.takeFault (by simp [FaultRecord.wf])
  · exact hs.pollKeys x
  · exact hs

/-- A latch is no part of the invariant. -/
theorem State.Inv.setKey {s : State} (h : s.Inv) (k : Fin 16) (b : Bool) : (s.setKey k b).Inv :=
  ⟨h.memory, h.pointer, h.image, h.mode⟩

/-- The timers are no part of the invariant. -/
theorem State.Inv.frequencyStep {s : State} (h : s.Inv) : (frequencyStep s).Inv :=
  ⟨h.memory, h.pointer, h.image, h.mode⟩

/-- Every host operation keeps the invariant. -/
theorem State.Inv.of_hostOp {p : Parameters} {op : HostOp} {s t : State} {r : HostResult} (hs : s.Inv)
    (h : hostOp op s p = .next (t, r)) : t.Inv := by
  cases op with
  | loadProgram bytes =>
    obtain ⟨hfits, rfl⟩ := hostLoad_next (silent_next h)
    exact inv_hostReset p hfits
  | reset =>
    obtain ⟨rfl, _⟩ := Prod.mk.inj (Host.Outcome.next.inj h)
    exact inv_hostReset p hs.image
  | keyPressed k | keyReleased k =>
    obtain ⟨_, rfl⟩ := hostKey_next (silent_next h)
    exact hs.setKey _ _
  | instructionStep =>
    obtain ⟨_, hstep⟩ := reportStep_next h
    exact hs.of_stepWith (stepWith_of_instructionStep hstep)
  | frequencyStep =>
    obtain ⟨rfl, _⟩ := Prod.mk.inj (Host.Outcome.next.inj h)
    exact hs.frequencyStep
  | pixelStates | soundOn =>
    obtain ⟨rfl, _⟩ := Prod.mk.inj (Host.Outcome.next.inj h)
    exact hs

/-- Settles O55: by induction on the schedule, each operation by `State.Inv.of_hostOp`. -/
theorem schedulesKeepTheInvariant : Obligations.SchedulesKeepTheInvariant := by
  intro p ops
  induction ops with
  | nil =>
    intro s t rs hs h
    obtain ⟨rfl, _⟩ := Prod.mk.inj (Host.Outcome.next.inj h)
    exact hs
  | cons op ops ih =>
    intro s u rs hs h
    obtain ⟨t, r, rs', hop, hrest, _⟩ := runSchedule_cons_next.mp h
    exact ih t u rs' (hs.of_hostOp hop) hrest

/-! ### Steps and schedules that complete -/

/-- With SP legal, every step answers a next state and a report. -/
theorem exists_instructionStep_next (p : Parameters) {s : State} (h : s.sp.toNat ≤ 16) :
    ∃ t r, instructionStep s p = .next (t, r) := by
  have hstep : ∃ t, stepWith p s = .next t := by
    rcases stepWith_cases p s with ⟨i, _, he⟩ | ⟨_, _, he⟩ | ⟨_, _, _, _, he⟩ | ⟨_, _, he⟩ | ⟨_, _, he⟩
    · rcases execWith_mode_cases p i s with ⟨hsp, _⟩ | ⟨t, ht, _⟩
      · omega
      · exact ⟨t, he.trans ht⟩
    all_goals exact ⟨_, he⟩
  obtain ⟨t, ht⟩ := hstep
  unfold stepWith at ht
  cases ho : instructionStep s p with
  | next tr => exact ⟨tr.1, tr.2, rfl⟩
  | fault f => cases ho ▸ ht
  | refused q => cases ho ▸ ht

/-- The host's duties for one operation (40_cycle.md R74): a load fits, and a key index names a key. -/
def HostOp.WithinDuties (op : HostOp) : Prop :=
  (∀ bytes, op = .loadProgram bytes → bytes.length ≤ 3584) ∧ (∀ k, op = .keyPressed k ∨ op = .keyReleased k → k < 16)

/-- With SP legal, every operation within the host's duties answers a next state. -/
theorem exists_hostOp_next (p : Parameters) {op : HostOp} {s : State} (hsp : s.sp.toNat ≤ 16) (hop : op.WithinDuties) :
    ∃ t r, hostOp op s p = .next (t, r) := by
  obtain ⟨hload, hkey⟩ := hop
  cases op with
  | loadProgram bytes =>
    have hfits : bytes.length ≤ maxImage := hload bytes rfl
    exact ⟨_, _, by rw [hostOp, hostLoad, if_pos hfits, silent]⟩
  | keyPressed k => exact ⟨_, _, by rw [hostOp, hostKey, dif_pos (hkey k (.inl rfl)), silent]⟩
  | keyReleased k => exact ⟨_, _, by rw [hostOp, hostKey, dif_pos (hkey k (.inr rfl)), silent]⟩
  | instructionStep =>
    obtain ⟨t, r, h⟩ := exists_instructionStep_next p hsp
    exact ⟨t, .step r, by rw [hostOp, h, reportStep]⟩
  | reset | frequencyStep | pixelStates | soundOn => exact ⟨_, _, rfl⟩

/-- A schedule within the host's duties runs to its end, with one result for each operation. -/
theorem exists_runSchedule_next (p : Parameters) {ops : List HostOp} {s : State} (hs : s.Inv)
    (hops : ∀ op ∈ ops, op.WithinDuties) : ∃ t rs, runSchedule ops s p = .next (t, rs) ∧ rs.length = ops.length := by
  induction ops generalizing s with
  | nil => exact ⟨s, [], rfl, rfl⟩
  | cons op ops ih =>
    obtain ⟨hop, hrest⟩ := List.forall_mem_cons.mp hops
    obtain ⟨t, r, ht⟩ := exists_hostOp_next p hs.pointer hop
    obtain ⟨u, rs, hu, hlen⟩ := ih (hs.of_hostOp ht) hrest
    exact ⟨u, r :: rs, runSchedule_cons_next.mpr ⟨t, r, rs, ht, hu, rfl⟩, congrArg (· + 1) hlen⟩

/-- Settles O56: the invariant keeps SP legal, so each step and each operation within the duties completes. -/
theorem everyStepHasANextState : Obligations.EveryStepHasANextState := by
  refine ⟨fun s hs => ?_, fun p ops s hs hops => exists_runSchedule_next p hs hops⟩
  obtain ⟨t, _, h⟩ := exists_instructionStep_next .default hs.pointer
  exact ⟨t, stepWith_of_instructionStep h⟩

end Sys2Proof.Machine
end

section
/-! The words the statements write out (30_encoding.md R53, R54), read as the encodings they are. -/

namespace Sys2Proof

/-- A word that is the encoding of an instruction decodes to it. -/
theorem decode_of_encode_eq {i : Instr} {w : Word} (hi : i.wellFormed = true) (hw : encode i = w) :
    decode w = .instr i := by
  rw [← hw]
  exact decodeOfEncodeIsTheInstruction i hi

/-- Format NNN drops no bit of an address that fits its field. -/
theorem formatNNN_of_fits {nnn : Word} (h : nnn.toNat < 4096) (op : Nat) :
    formatNNN op nnn = BitVec.ofNat 16 (op * 4096 + nnn.toNat) := by
  rw [formatNNN, Nat.mod_eq_of_lt h]

/-- Format XYN drops no bit of a low nibble. -/
theorem formatXYN_of_nibble (op : Nat) (x y : Reg) (n : Fin 16) :
    formatXYN op x y n.val = BitVec.ofNat 16 (op * 4096 + x.val * 256 + y.val * 16 + n.val) := by
  rw [formatXYN, Nat.mod_eq_of_lt n.isLt]

/-- Families 5 and 9 have no operation with a low nibble other than 0 (30_encoding.md R58). -/
theorem decode_formatXYN_of_ne_zero {op : Nat} (hop : op = 5 ∨ op = 9) (x y : Reg) {n : Fin 16} (hn : n ≠ 0) :
    decode (formatXYN op x y n.val) = .invalid (formatXYN op x y n.val) := by
  have hlow : nOf (formatXYN op x y n.val) ≠ 0 := by
    rw [nOf_formatXYN (by omega), Nat.mod_eq_of_lt n.isLt]
    exact Fin.val_ne_zero_iff.mpr hn
  rcases hop with rfl | rfl
  · rw [decode, opOf_formatXYN (by decide)]
    exact if_neg hlow
  · rw [decode, opOf_formatXYN (by decide)]
    exact if_neg hlow

end Sys2Proof
end

section
/-! Control transfer and skips (41_control.md): what each instruction answers and leaves unchanged. -/

namespace Sys2Proof.Machine

/-! ### Jumps and skips (R77, R79, R81 to R85) -/

theorem keepsAllButRegs_setPc (s : State) (w : Word) : KeepsAllButRegs [] s (s.setPc w) :=
  ⟨fun _ _ => rfl, fun _ => rfl, rfl, ⟨⟨rfl, rfl⟩, rfl, rfl⟩, ⟨rfl, rfl⟩, rfl, rfl, rfl⟩

theorem keepsAllButRegs_advanceSkip (s : State) (b : Bool) : KeepsAllButRegs [] s (s.advanceSkip b) := by
  cases b with
  | false => exact keepsAllButRegs_setPc s (s.pc + 2)
  | true => exact keepsAllButRegs_setPc s (s.pc + 2 + 2)

/-- An instruction that skips if `p`. -/
theorem next_of_skip_if {o : Host.Outcome State Fault Refusal} {s : State} {p : Prop} [Decidable p]
    (ho : o = .next (s.advanceSkip (decide p))) :
    ∃ t, o = .next t ∧ t.pc = (if p then s.pc + 4 else s.pc + 2) ∧ KeepsAllButRegs [] s t :=
  ⟨_, ho, by simp, keepsAllButRegs_advanceSkip s _⟩

/-- An instruction that skips unless `p`. -/
theorem next_of_skip_unless {o : Host.Outcome State Fault Refusal} {s : State} {p : Prop} [Decidable p]
    (ho : o = .next (s.advanceSkip (decide ¬p))) :
    ∃ t, o = .next t ∧ t.pc = (if p then s.pc + 2 else s.pc + 4) ∧ KeepsAllButRegs [] s t :=
  ⟨_, ho, by simp, keepsAllButRegs_advanceSkip s _⟩

/-- The sum of a 12-bit address and a byte does not wrap. -/
theorem toNat_add_zext16 {nnn : Word} (h : nnn.toNat < 4096) (b : Byte) :
    (nnn + zext16 b).toNat = nnn.toNat + b.toNat := by
  have := b.isLt
  rw [BitVec.toNat_add, zext16_toNat]
  omega

/-! ### CALL and RET (R78, R80) -/

/-- Push on a full stack. -/
theorem push_of_full {s : State} (a : Word) (h : s.sp = 16) :
    push s a = .error (.raised .stackOverflow (.pointer 16)) := by
  rw [push, if_pos h, h]

/-- Pop on an empty stack. -/
theorem pop_of_empty {s : State} (h : s.sp = 0) : pop s = .error (.raised .stackUnderflow (.pointer 0)) := by
  rw [pop, if_pos h, h]

theorem toNat_ofNat_slot (j : Fin 16) : (BitVec.ofNat 8 j.val).toNat = j.val := by
  rw [BitVec.toNat_ofNat]
  omega

/-- Pop with `j + 1` slots in use reads slot `j`. -/
theorem pop_of_slots {s : State} {j : Fin 16} (h : s.sp.toNat = j.val + 1) :
    pop s = .ok (s.stack[j.val], { s with sp := BitVec.ofNat 8 j.val }) := by
  have hj := toNat_ofNat_slot j
  have hsp : s.sp = BitVec.ofNat 8 j.val + 1 := by
    apply BitVec.eq_of_toNat_eq
    rw [h, toNat_pointer_succ (by omega), hj]
  simpa only [hj] using pop_of_pointer_succ hsp (by omega)

theorem exec_call_of_lt {s : State} (nnn : Word) (h : s.sp.toNat < 16) :
    exec (.call nnn) s = .next { s with stack := s.stack.set s.sp.toNat (s.pc + 2), sp := s.sp + 1, pc := nnn } := by
  rw [exec, execCall, push_of_lt (s := s.advance) _ h]
  rfl

theorem exec_call_of_full {s : State} (nnn : Word) (h : s.sp = 16) :
    exec (.call nnn) s = .next (latched s .stackOverflow 3 (some (encode (.call nnn))) (.pointer 16)) := by
  rw [exec, execCall, push_of_full (s := s.advance) _ h]
  rfl

theorem exec_ret_of_slots {s : State} {j : Fin 16} (h : s.sp.toNat = j.val + 1) :
    exec .ret s = .next { s with sp := BitVec.ofNat 8 j.val, pc := s.stack[j.val] } := by
  rw [exec, execRet, pop_of_slots (s := s.advance) h]
  rfl

theorem exec_ret_of_empty {s : State} (h : s.sp = 0) :
    exec .ret s = .next (latched s .stackUnderflow 4 (some 0x00EE) (.pointer 0)) := by
  rw [exec, execRet, pop_of_empty (s := s.advance) h]
  rfl

/-- The frame of CALL and RET: with the slots, SP and PC replaced, all else is as it was. -/
theorem keepsRest_of_stack_and_pc (s : State) (slots : Vector Word 16) (sp : Byte) (w : Word) :
    let t : State := { s with stack := slots, sp := sp, pc := w }
    KeepsRegsExcept [] s t ∧ KeepsMemory s t ∧ KeepsI s t ∧ KeepsDevices s t ∧ KeepsMode s t ∧ KeepsImage s t ∧
      KeepsDraws s t :=
  ⟨fun _ _ => rfl, fun _ => rfl, rfl, ⟨⟨rfl, rfl⟩, rfl, rfl⟩, rfl, rfl, rfl⟩

/-! ### The obligations -/

/-- Settles O6: Pop reads slot `j` of `j + 1` in use, and raises the fault on an empty stack. -/
theorem retPopsTheReturnAddress : Obligations.RetPopsTheReturnAddress := by
  refine ⟨decode_of_encode_eq rfl rfl, fun s => ⟨fun j h => ?_, exec_ret_of_empty⟩⟩
  exact ⟨_, exec_ret_of_slots h, rfl, toNat_ofNat_slot j, rfl, keepsRest_of_stack_and_pc s s.stack _ _⟩

/-- Settles O8: Push writes slot SP alone below a full stack, and raises the fault on a full one. -/
theorem callPushesTheReturnAddress : Obligations.CallPushesTheReturnAddress := by
  intro nnn s
  refine ⟨fun hn => decode_of_encode_eq (decide_eq_true hn) (formatNNN_of_fits hn 2), fun h => ?_, fun hn h => ?_⟩
  · exact ⟨_, exec_call_of_lt nnn h, rfl, toNat_pointer_succ h, Vector.getElem_set_self h,
      fun j hj => Vector.getElem_set_ne h j.isLt hj.symm, keepsRest_of_stack_and_pc s _ _ _⟩
  · have hw : encode (.call nnn) = BitVec.ofNat 16 (0x2000 + nnn.toNat) := formatNNN_of_fits hn 2
    rw [exec_call_of_full nnn h, hw]

/-- Settles O7: JP writes PC after the fetch's advance. -/
theorem jpSetsPc : Obligations.JpSetsPc := fun nnn s =>
  ⟨fun hn => decode_of_encode_eq (decide_eq_true hn) (formatNNN_of_fits hn 1), s.setPc nnn, rfl, rfl,
    keepsAllButRegs_setPc s nnn⟩

/-- Settles O9: SE skips if the operands are equal, SNE unless they are. -/
theorem skipOnImmediate : Obligations.SkipOnImmediate := fun _ _ _ =>
  ⟨decode_of_encode_eq rfl rfl, decode_of_encode_eq rfl rfl, next_of_skip_if rfl, next_of_skip_unless rfl⟩

/-- Settles O10: as for an immediate, and the other low nibbles by `decode_formatXYN_of_ne_zero`. -/
theorem skipOnRegisters : Obligations.SkipOnRegisters := by
  intro x y s
  refine ⟨decode_of_encode_eq rfl rfl, decode_of_encode_eq rfl rfl, fun n hn op hop => ?_, next_of_skip_if rfl,
    next_of_skip_unless rfl⟩
  obtain rfl | rfl : op = 5 * 4096 ∨ op = 9 * 4096 := by simpa using hop
  · rw [← formatXYN_of_nibble 5]
    exact decode_formatXYN_of_ne_zero (.inl rfl) x y hn
  · rw [← formatXYN_of_nibble 9]
    exact decode_formatXYN_of_ne_zero (.inr rfl) x y hn

/-- Settles O11: JP V0 writes PC after the fetch's advance, and the sum is exact. -/
theorem jpV0AddsV0 : Obligations.JpV0AddsV0 := fun nnn s hn =>
  ⟨decode_of_encode_eq (decide_eq_true hn) (formatNNN_of_fits hn 0xB), s.setPc (nnn + zext16 (s.reg 0)), rfl,
    toNat_add_zext16 hn _, keepsAllButRegs_setPc s _⟩

end Sys2Proof.Machine
end

section
/-! Register loads and the ALU (42_alu.md): the flags and results as numbers, then what each instruction answers and leaves
unchanged. -/

namespace Sys2Proof.Machine

/-! ### Flags and results as numbers (R94 to R98) -/

theorem bool2u8_decide_toNat (p : Prop) [Decidable p] : (bool2u8 (decide p)).toNat = if p then 1 else 0 := by
  by_cases h : p <;> simp [h]

theorem carryFlag_toNat (a b : Byte) : (carryFlag a b).toNat = if a.toNat + b.toNat > 255 then 1 else 0 :=
  bool2u8_decide_toNat _

theorem greaterFlag_toNat (a b : Byte) : (greaterFlag a b).toNat = if a.toNat > b.toNat then 1 else 0 :=
  bool2u8_decide_toNat _

theorem shiftOutRight_toNat (b : Byte) : (shiftOutRight b).toNat = b.toNat % 2 := by
  rw [shiftOutRight, bool2u8_decide_toNat]
  split <;> omega

theorem shiftOutLeft_toNat (b : Byte) : (shiftOutLeft b).toNat = b.toNat / 128 := by
  have := b.isLt
  rw [shiftOutLeft, bool2u8_decide_toNat]
  split <;> omega

theorem toNat_shiftRight_one (b : Byte) : (b >>> 1).toNat = b.toNat / 2 := by
  rw [BitVec.toNat_ushiftRight, Nat.shiftRight_one]

theorem toNat_shiftLeft_one (b : Byte) : (b <<< 1).toNat = b.toNat * 2 % 256 := by
  rw [BitVec.toNat_shiftLeft, Nat.shiftLeft_eq]

/-- The difference of two bytes is the integer difference mod 256. -/
theorem toNat_sub_eq_emod (a b : Byte) : ((a - b).toNat : Int) = (a.toNat - b.toNat : Int) % 256 := by
  have := b.isLt
  rw [BitVec.toNat_sub]
  omega

/-! ### Encodings -/

/-- Format XYN of family 8, as the statements write it. -/
theorem formatXYN_alu (x y : Reg) (n : Fin 16) :
    formatXYN 8 x y n.val = BitVec.ofNat 16 (0x8000 + n.val + x.val * 0x100 + y.val * 0x10) := by
  rw [formatXYN_of_nibble]
  congr 1
  omega

/-! ### Frames of register writes -/

theorem KeepsRegsExcept.setReg {rs : List Reg} {s t : State} {x : Reg} (h : KeepsRegsExcept rs s t) (hx : x ∈ rs)
    (b : Byte) : KeepsRegsExcept rs s (t.setReg x b) := fun q hq => by
  rw [State.reg_setReg, if_neg (ne_of_mem_of_not_mem hx hq).symm, h q hq]

theorem KeepsAllButRegs.setReg {rs : List Reg} {s t : State} {x : Reg} (h : KeepsAllButRegs rs s t) (hx : x ∈ rs)
    (b : Byte) : KeepsAllButRegs rs s (t.setReg x b) := by
  obtain ⟨hregs, hrest⟩ := h
  exact ⟨hregs.setReg hx b, hrest⟩

theorem keepsAllButRegs_advance (rs : List Reg) (s : State) : KeepsAllButRegs rs s s.advance := by
  obtain ⟨_, hrest⟩ := keepsAllButRegs_setPc s (s.pc + 2)
  exact ⟨fun _ _ => rfl, hrest⟩

/-! ### What an instruction of each form answers -/

/-- An instruction that writes one register. -/
theorem next_of_setReg {o : Host.Outcome State Fault Refusal} {s : State} {x : Reg} {b : Byte}
    (ho : o = .next (s.advance.setReg x b)) :
    ∃ t, o = .next t ∧ t.reg x = b ∧ t.pc = s.pc + 2 ∧ KeepsAllButRegs [x] s t :=
  ⟨_, ho, by simp, rfl, (keepsAllButRegs_advance _ s).setReg (by simp) b⟩

/-- An instruction that writes a result of value `n`, then a flag of value `f` (R87). -/
theorem next_of_setResultFlag {o : Host.Outcome State Fault Refusal} {s : State} {x : Reg} {result flag : Byte}
    {n f : Nat} (ho : o = .next (s.advance.setResultFlag x result flag)) (hf : flag.toNat = f)
    (hn : result.toNat = n) :
    ∃ t, o = .next t ∧ (t.reg 15).toNat = f ∧ (x ≠ 15 → (t.reg x).toNat = n) ∧ t.pc = s.pc + 2 ∧
      KeepsAllButRegs [x, 15] s t := by
  refine ⟨_, ho, by simpa using hf, fun hx => by simpa [hx] using hn, rfl, ?_⟩
  exact ((keepsAllButRegs_advance _ s).setReg (by simp) result).setReg (by simp) flag

/-- An instruction that writes the difference of two bytes, then whether the first is the greater (R95, R97). -/
theorem next_of_difference {o : Host.Outcome State Fault Refusal} {s : State} {x : Reg} {a b : Byte}
    (ho : o = .next (s.advance.setResultFlag x (a - b) (greaterFlag a b))) :
    ∃ t, o = .next t ∧ (t.reg 15).toNat = (if a.toNat > b.toNat then 1 else 0) ∧
      (x ≠ 15 → ((t.reg x).toNat : Int) = (a.toNat - b.toNat : Int) % 256) ∧ t.pc = s.pc + 2 ∧
      KeepsAllButRegs [x, 15] s t := by
  obtain ⟨t, ht, hflag, hresult, hrest⟩ := next_of_setResultFlag ho (greaterFlag_toNat a b) rfl
  exact ⟨t, ht, hflag, fun hx => by rw [hresult hx, toNat_sub_eq_emod], hrest⟩

/-! ### SUBN under either value of its parameter (R97) -/

theorem execWith_subn_of_wraps {p : Parameters} {x y : Reg} {s : State}
    (h : p.rsubFaults = false ∨ (s.reg x).toNat ≤ (s.reg y).toNat) :
    execWith p (.subn x y) s =
      .next (s.advance.setResultFlag x (s.reg y - s.reg x) (greaterFlag (s.reg y) (s.reg x))) := by
  have hno : ¬(p.rsubFaults = true ∧ (s.reg y).toNat < (s.reg x).toNat) := by
    rintro ⟨hp, hlt⟩
    rcases h with hp' | hle
    · exact absurd (hp.symm.trans hp') (by decide)
    · omega
  rw [execWith, reverseSubtract, if_neg hno, conclude_ok]

theorem execWith_subn_of_underflow {p : Parameters} {x y : Reg} {s : State} (hp : p.rsubFaults = true)
    (hlt : (s.reg y).toNat < (s.reg x).toNat) :
    execWith p (.subn x y) s =
      .next (latched s .arithmeticUnderflow 6 (some (encode (.subn x y))) (.operands (s.reg x) (s.reg y))) := by
  rw [execWith, reverseSubtract, if_pos ⟨hp, hlt⟩, conclude_raised]
  rfl

/-! ### The obligations -/

/-- Settles O19: the two clauses are the two branches of the reverse subtract. -/
theorem subnUnderBothParameterValues : Obligations.SubnUnderBothParameterValues := by
  intro p x y s
  have hw : encode (.subn x y) = BitVec.ofNat 16 (0x8007 + x.val * 0x100 + y.val * 0x10) := formatXYN_alu x y 7
  refine ⟨decode_of_encode_eq rfl hw, rfl, fun h => next_of_difference (execWith_subn_of_wraps h), fun hp hlt => ?_⟩
  rw [execWith_subn_of_underflow hp hlt, hw]

/-- Settles O20: the parameter's default asks for no fault. -/
theorem subnWrapsByDefault : Obligations.SubnWrapsByDefault := fun x y s =>
  next_of_difference ((execWith_default _ s).symm.trans (execWith_subn_of_wraps (x := x) (y := y) (.inl rfl)))

/-- Settles O12: one register written. -/
theorem ldImmLoadsTheByte : Obligations.LdImmLoadsTheByte := fun _ _ _ =>
  ⟨decode_of_encode_eq rfl rfl, next_of_setReg rfl⟩

/-- Settles O13: the sum of two bytes is the sum of their values mod 256. -/
theorem addImmWrapsWithoutFlag : Obligations.AddImmWrapsWithoutFlag := by
  intro x kk s
  obtain ⟨t, ht, hresult, hrest⟩ := next_of_setReg (o := exec (.addImm x kk) s) rfl
  exact ⟨decode_of_encode_eq rfl rfl, t, ht, by rw [hresult, BitVec.toNat_add], hrest⟩

/-- Settles O14: one register written by each of the four. -/
theorem copyAndLogicKeepVF : Obligations.CopyAndLogicKeepVF := fun x y _ =>
  ⟨⟨decode_of_encode_eq rfl (formatXYN_alu x y 0), next_of_setReg rfl⟩,
    ⟨decode_of_encode_eq rfl (formatXYN_alu x y 1), next_of_setReg rfl⟩,
    ⟨decode_of_encode_eq rfl (formatXYN_alu x y 2), next_of_setReg rfl⟩,
    decode_of_encode_eq rfl (formatXYN_alu x y 3), next_of_setReg rfl⟩

/-- Settles O15: the sum mod 256, and the carry out of it. -/
theorem addRegCarriesToVF : Obligations.AddRegCarriesToVF := fun x y _ =>
  ⟨decode_of_encode_eq rfl (formatXYN_alu x y 4), next_of_setResultFlag rfl (carryFlag_toNat _ _) (BitVec.toNat_add _ _)⟩

/-- Settles O16: the difference of Vx and Vy. -/
theorem subRegFlagsStrictlyGreater : Obligations.SubRegFlagsStrictlyGreater := fun x y _ =>
  ⟨decode_of_encode_eq rfl (formatXYN_alu x y 5), next_of_difference rfl⟩

/-- Settles O17: the half, and the bit the shift drops. -/
theorem shrShiftsBitZeroToVF : Obligations.ShrShiftsBitZeroToVF := fun x y _ =>
  ⟨decode_of_encode_eq rfl (formatXYN_alu x y 6),
    next_of_setResultFlag rfl (shiftOutRight_toNat _) (toNat_shiftRight_one _)⟩

/-- Settles O18: the double mod 256, and the bit the shift drops. -/
theorem shlShiftsBitSevenToVF : Obligations.ShlShiftsBitSevenToVF := fun x y _ =>
  ⟨decode_of_encode_eq rfl (formatXYN_alu x y 0xE),
    next_of_setResultFlag rfl (shiftOutLeft_toNat _) (toNat_shiftLeft_one _)⟩

/-- Settles O21: the draw is the witness, and besides Vx and PC only the model's counter of draws moves (`exec_rnd`). -/
theorem rndMasksADraw : Obligations.RndMasksADraw := by
  intro x kk s
  have hregs : KeepsRegsExcept [x] s { s.advance with draws := s.draws + 1 } := fun _ _ => rfl
  exact ⟨decode_of_encode_eq rfl rfl, _, exec_rnd x kk s, ⟨Config.freeByte s.draws, by simp⟩, rfl,
    hregs.setReg (by simp) _, fun _ => rfl, rfl, ⟨⟨rfl, rfl⟩, rfl, rfl⟩, ⟨rfl, rfl⟩, rfl, rfl⟩

end Sys2Proof.Machine
end

section
/-! The address register and memory operations (43_memory_ops.md): blocks read back byte by byte, then what each instruction
answers and leaves unchanged. -/

namespace Sys2Proof.Machine

/-! ### Encodings -/

/-- Format XS of family F, as the statements write it. -/
theorem formatXKK_misc (x : Reg) (kk : Byte) :
    formatXKK 0xF x kk = BitVec.ofNat 16 (0xF000 + kk.toNat + x.val * 0x100) := by
  rw [formatXKK]
  congr 1
  omega

/-! ### Values (R102 to R104) -/

/-- Five times a byte fits 16 bits. -/
theorem toNat_five_mul_zext16 (b : Byte) : (5 * zext16 b).toNat = 5 * b.toNat := by
  have := b.isLt
  rw [BitVec.toNat_mul, zext16_toNat, show (5 : Word).toNat = 5 from rfl]
  omega

theorem toNat_decimalDigits (b : Byte) :
    (decimalDigits b)[0].toNat = b.toNat / 100 ∧ (decimalDigits b)[1].toNat = b.toNat / 10 % 10 ∧
      (decimalDigits b)[2].toNat = b.toNat % 10 := by
  have := b.isLt
  simp only [decimalDigits, List.getElem_cons_zero, List.getElem_cons_succ, BitVec.toNat_ofNat]
  omega

/-! ### What an instruction of each form answers -/

/-- An instruction that writes I. -/
theorem next_of_setI {o : Host.Outcome State Fault Refusal} {s : State} {w : Word}
    (ho : o = .next (s.advance.setI w)) :
    ∃ t, o = .next t ∧ t.i = w ∧ t.pc = s.pc + 2 ∧ KeepsRegsExcept [] s t ∧ KeepsMemory s t ∧ KeepsDevices s t ∧
      KeepsControl s t :=
  ⟨_, ho, rfl, rfl, fun _ _ => rfl, fun _ => rfl, ⟨⟨rfl, rfl⟩, rfl, rfl⟩, ⟨rfl, rfl⟩, rfl, rfl, rfl⟩

/-- An instruction that stores a block: each byte of it is read where it was stored. -/
theorem next_of_store {o : Host.Outcome State Fault Refusal} {s : State} {bs : List Byte}
    (ho : o = .next (s.advance.setMem (s.mem.writeBytes s.blockBase bs))) :
    ∃ t, o = .next t ∧ (∀ (k : Nat) (hk : k < bs.length), t.mem.read (s.blockBase + k) = bs[k]) ∧
      KeepsMemoryOutside s.blockBase bs.length s t ∧ t.pc = s.pc + 2 ∧ KeepsRegsExcept [] s t ∧ KeepsI s t ∧
      KeepsDevices s t ∧ KeepsControl s t := by
  refine ⟨_, ho, fun k hk => ?_, keepsMemoryOutside_store s _ bs, rfl, fun _ _ => rfl, rfl, ⟨⟨rfl, rfl⟩, rfl, rfl⟩,
    ⟨rfl, rfl⟩, rfl, rfl, rfl⟩
  rw [State.setMem_mem, Memory.read_writeBytes, if_pos (Nat.le_add_right _ k), Nat.add_sub_cancel_left,
    List.getD_eq_getElem _ _ hk]

/-- The frame of a block of registers written: all else but PC is as it was. -/
theorem keepsRest_of_setRegBlock (s : State) (bs : List Byte) :
    let t := s.advance.setRegBlock bs
    KeepsMemory s t ∧ t.pc = s.pc + 2 ∧ KeepsI s t ∧ KeepsDevices s t ∧ KeepsControl s t := by
  simp [KeepsMemory, KeepsI, KeepsDevices, KeepsTimers, KeepsDisplay, KeepsKeys, KeepsControl, KeepsStack, KeepsMode,
    KeepsImage, KeepsDraws]

/-- An instruction that loads V0..Vx from the block at I. -/
theorem next_of_load {o : Host.Outcome State Fault Refusal} {s : State} {x : Reg}
    (ho : o = .next (s.advance.setRegBlock (s.mem.readBytes s.blockBase (x.val + 1)))) :
    ∃ t, o = .next t ∧ (∀ r : Reg, t.reg r = if r ≤ x then s.mem.read (s.blockBase + r.val) else s.reg r) ∧
      KeepsMemory s t ∧ t.pc = s.pc + 2 ∧ KeepsI s t ∧ KeepsDevices s t ∧ KeepsControl s t := by
  refine ⟨_, ho, fun r => ?_, keepsRest_of_setRegBlock s _⟩
  have hle : r.val < x.val + 1 ↔ r ≤ x := Nat.lt_succ_iff
  simp only [State.reg_setRegBlock, State.reg_advance, Memory.getD_readBytes, hle]

/-- The two answers of an access to the `k + 1` bytes from `a` up, told apart by its last address. -/
theorem answers_of_lastAddress {a k : Nat} {fits faults : Prop}
    (h : a + k + 1 ≤ 4096 ∧ fits ∨ 4096 < a + k + 1 ∧ faults) :
    (a + k < 4096 → fits) ∧ (a + k ≥ 4096 → faults) := by
  rcases h with ⟨hle, hfits⟩ | ⟨hlt, hfaults⟩
  · exact ⟨fun _ => hfits, fun hge => by omega⟩
  · exact ⟨fun hin => by omega, fun _ => hfaults⟩

/-! ### The obligations -/

/-- Settles O26: a store of the three digits, read back byte by byte. -/
theorem ldBStoresTheDecimalDigits : Obligations.LdBStoresTheDecimalDigits := by
  intro x s
  have hw : encode (.ldBVx x) = BitVec.ofNat 16 (0xF033 + x.val * 0x100) := formatXKK_misc x 0x33
  obtain ⟨hfits, hfault⟩ := answers_of_lastAddress (k := 2) (execLdBVx_cases x s)
  refine ⟨decode_of_encode_eq rfl hw, fun h => ?_, fun h => ?_⟩
  · obtain ⟨t, ht, hread, hrest⟩ := next_of_store (hfits h)
    obtain ⟨hundreds, htens, hones⟩ := toNat_decimalDigits (s.reg x)
    exact ⟨t, ht, (congrArg BitVec.toNat (hread 0 (by simp))).trans hundreds,
      (congrArg BitVec.toNat (hread 1 (by simp))).trans htens, (congrArg BitVec.toNat (hread 2 (by simp))).trans hones,
      hrest⟩
  · rw [← hw]
    exact hfault h

/-- Settles O27: a store of the register block, whose byte `r` is Vr. -/
theorem ldMemStoresTheRegisterBlock : Obligations.LdMemStoresTheRegisterBlock := by
  intro x s
  have hw : encode (.ldMemVx x) = BitVec.ofNat 16 (0xF055 + x.val * 0x100) := formatXKK_misc x 0x55
  obtain ⟨hfits, hfault⟩ := answers_of_lastAddress (execLdMemVx_cases x s)
  refine ⟨decode_of_encode_eq rfl hw, fun h => ?_, fun h => ?_⟩
  · obtain ⟨t, ht, hread, hkept, hrest⟩ := next_of_store (hfits h)
    rw [length_regBlock] at hkept
    exact ⟨t, ht, fun r hr => (hread r.val _).trans (getElem_regBlock s x r hr), hkept, hrest⟩
  · rw [← hw]
    exact hfault h

/-- Settles O28: a load of the register block. -/
theorem ldVxMemLoadsTheRegisterBlock : Obligations.LdVxMemLoadsTheRegisterBlock := by
  intro x s
  have hw : encode (.ldVxMem x) = BitVec.ofNat 16 (0xF065 + x.val * 0x100) := formatXKK_misc x 0x65
  obtain ⟨hfits, hfault⟩ := answers_of_lastAddress (execLdVxMem_cases x s)
  refine ⟨decode_of_encode_eq rfl hw, fun h => next_of_load (hfits h), fun h => ?_⟩
  rw [← hw]
  exact hfault h

/-- Settles O23: I written. -/
theorem ldILoadsTheAddress : Obligations.LdILoadsTheAddress := fun _ _ =>
  ⟨fun hn => decode_of_encode_eq (decide_eq_true hn) (formatNNN_of_fits hn 0xA), next_of_setI rfl⟩

/-- Settles O24: the 16-bit sum of I and the widened register. -/
theorem addIWrapsWithoutFlag : Obligations.AddIWrapsWithoutFlag := by
  intro x s
  obtain ⟨t, ht, hi, hrest⟩ := next_of_setI (o := exec (.addIVx x) s) rfl
  exact ⟨decode_of_encode_eq rfl (formatXKK_misc x 0x1E), t, ht, by rw [hi, BitVec.toNat_add, zext16_toNat], hrest⟩

/-- Settles O25: the product is exact in 16 bits, so no value of Vx is masked. -/
theorem ldFPointsAtTheGlyph : Obligations.LdFPointsAtTheGlyph := by
  intro x s
  obtain ⟨t, ht, hi, hrest⟩ := next_of_setI (o := exec (.ldFVx x) s) rfl
  exact ⟨decode_of_encode_eq rfl (formatXKK_misc x 0x29), t, ht, by rw [hi, toNat_five_mul_zext16], hrest⟩

end Sys2Proof.Machine
end

section
/-! The display's two instructions (44_display.md): a sprite read from memory and drawn, pixel by pixel, then what each
instruction answers and leaves unchanged. -/

namespace Sys2Proof.Machine

/-! ### Drawing (R109 to R111) -/

/-- The rows a draw reads at `base` cover the pixels the sprite there covers. -/
theorem rowsCover_readBytes (mem : Memory) (base x0 y0 n px py : Nat) :
    rowsCover (mem.readBytes base n) x0 y0 px py = spriteCovers mem base x0 y0 n px py := by
  rw [rowsCover, spriteCovers, spriteBit, Memory.length_readBytes, Memory.getD_readBytes]
  by_cases hin : x0 ≤ px ∧ px < x0 + 8 ∧ y0 ≤ py ∧ py < y0 + n
  · rw [if_pos (by omega)]
  · rw [decide_eq_false hin, Bool.false_and, Bool.false_and]

section
variable {g : Grid} {mem : Memory} {base n : Nat} {x0 y0 : Byte}

theorem pixel_displayDraw {px py : Nat} (hx : px < 64) (hy : py < 32) :
    pixel (displayDraw g x0 y0 (mem.readBytes base n)).1 px py =
      (pixel g px py ^^ spriteCovers mem base x0.toNat y0.toNat n px py) := by
  obtain ⟨hpixel, _⟩ := blitRows_spec (mem.readBytes base n) x0.toNat y0.toNat (g, false)
  rw [displayDraw, hpixel px py hx hy, rowsCover_readBytes]

/-- A collision is a pixel of the grid that was on and is under a set sprite bit; one off the grid is never on. -/
theorem displayDraw_collides_iff :
    (displayDraw g x0 y0 (mem.readBytes base n)).2 = true ↔
      ∃ px py : Nat, px < 64 ∧ py < 32 ∧ pixel g px py = true ∧
        spriteCovers mem base x0.toNat y0.toNat n px py = true := by
  obtain ⟨_, hhit⟩ := blitRows_spec (mem.readBytes base n) x0.toNat y0.toNat (g, false)
  simp only [rowsCover_readBytes] at hhit
  rw [displayDraw, hhit]
  constructor
  · rintro (hno | ⟨px, py, hon, hcover⟩)
    · exact absurd hno Bool.false_ne_true
    · obtain ⟨hx, hy⟩ := onGrid_of_pixel hon
      exact ⟨px, py, hx, hy, hon, hcover⟩
  · rintro ⟨px, py, _, _, hon, hcover⟩
    exact .inr ⟨px, py, hon, hcover⟩

end

/-! ### What DRW answers (R114) -/

theorem encode_drw {n : Nat} (hn : n < 16) (x y : Reg) :
    encode (.drw x y n) = BitVec.ofNat 16 (0xD000 + x.val * 0x100 + y.val * 0x10 + n) :=
  formatXYN_of_nibble 0xD x y ⟨n, hn⟩

theorem exec_drw_of_fits {n : Nat} {s : State} (x y : Reg) (h : n = 0 ∨ s.blockBase + n - 1 < 4096) :
    ∃ drawn, drawn = displayDraw s.disp (s.reg x) (s.reg y) (s.mem.readBytes s.blockBase n) ∧
      exec (.drw x y n) s = .next ((s.advance.setDisp drawn.1).setReg 15 (bool2u8 drawn.2)) := by
  rcases execDrw_cases x y n s with ⟨_, hdraws⟩ | ⟨hpos, hout, _⟩
  · exact hdraws
  · rw [State.blockBase] at h
    omega

theorem exec_drw_of_outOfRange {n : Nat} {s : State} (x y : Reg) (hn : 0 < n) (h : s.blockBase + n - 1 ≥ 4096) :
    exec (.drw x y n) s =
      .next (latched s .addressOutOfRange 2 (some (encode (.drw x y n))) (.address (max s.i.toNat 4096))) := by
  rcases execDrw_cases x y n s with ⟨hin, _⟩ | ⟨_, _, hfault⟩
  · rw [State.blockBase] at h
    omega
  · exact hfault

/-- The frame of an instruction that writes the grid, apart from its registers. -/
theorem keepsRest_of_setDisp (s : State) (g : Grid) :
    let t := s.advance.setDisp g
    KeepsMemory s t ∧ KeepsI s t ∧ KeepsTimers s t ∧ KeepsKeys s t ∧ KeepsControl s t :=
  ⟨fun _ => rfl, rfl, ⟨rfl, rfl⟩, rfl, ⟨rfl, rfl⟩, rfl, rfl, rfl⟩

theorem keepsRegsExcept_setDisp (rs : List Reg) (s : State) (g : Grid) :
    KeepsRegsExcept rs s (s.advance.setDisp g) := fun _ _ => rfl

/-! ### The obligations -/

/-- Settles O30: the grid by `pixel_displayDraw`, VF by `displayDraw_collides_iff`, or the fault of a sprite that does not
lie in memory. -/
theorem drwXorsTheSpriteAndReportsCollision : Obligations.DrwXorsTheSpriteAndReportsCollision := by
  intro x y n s
  refine ⟨fun hn => decode_of_encode_eq (decide_eq_true hn) (encode_drw hn x y), fun hfits => ?_, fun hpos hn hout => ?_⟩
  · obtain ⟨drawn, hdrawn, hexec⟩ := exec_drw_of_fits x y hfits
    refine ⟨_, hexec, fun px py hx hy => ?_, fun hhit => ?_, fun hmiss => ?_,
      (keepsRegsExcept_setDisp _ s drawn.1).setReg (by simp) _, rfl, keepsRest_of_setDisp s drawn.1⟩
    · rw [State.setReg_disp, State.setDisp_disp, hdrawn, pixel_displayDraw hx hy]
    · rw [State.reg_setReg, if_pos rfl, hdrawn, displayDraw_collides_iff.mpr hhit]
      rfl
    · rw [State.reg_setReg, if_pos rfl, hdrawn, Bool.eq_false_iff.mpr (mt displayDraw_collides_iff.mp hmiss)]
      rfl
  · rw [← encode_drw hn]
    exact exec_drw_of_outOfRange x y hpos hout

/-- Settles O29: the grid written is the clear one, and registers are kept. -/
theorem clsClearsEveryPixel : Obligations.ClsClearsEveryPixel :=
  ⟨decode_of_encode_eq rfl rfl, fun s =>
    ⟨_, rfl, pixel_displayClear, rfl, keepsRegsExcept_setDisp [] s _, keepsRest_of_setDisp s _⟩⟩

end Sys2Proof.Machine
end

section
/-! The keyboard latches and the timers (45_keys_timers.md): what the two key skips, the key wait, the three timer
instructions and the host's operations on these parts answer and leave unchanged. -/

namespace Sys2Proof.Machine

/-! ### Encodings -/

/-- Format XS of family E, as the statements write it. -/
theorem formatXKK_key (x : Reg) (kk : Byte) :
    formatXKK 0xE x kk = BitVec.ofNat 16 (0xE000 + kk.toNat + x.val * 0x100) := by
  rw [formatXKK]
  congr 1
  omega

theorem encode_skp (x : Reg) : encode (.skp x) = BitVec.ofNat 16 (0xE09E + x.val * 0x100) := formatXKK_key x 0x9E

theorem encode_sknp (x : Reg) : encode (.sknp x) = BitVec.ofNat 16 (0xE0A1 + x.val * 0x100) := formatXKK_key x 0xA1

/-! ### ReadClear and the key skips (R116 to R118) -/

/-- The frame of a latch write. -/
theorem keepsRest_of_setKey (s : State) (k : Fin 16) (b : Bool) :
    let t := s.setKey k b
    t.pc = s.pc ∧ KeepsRegsExcept [] s t ∧ KeepsMemory s t ∧ KeepsI s t ∧ KeepsTimers s t ∧ KeepsDisplay s t ∧
      KeepsControl s t :=
  ⟨rfl, fun _ _ => rfl, fun _ => rfl, rfl, ⟨rfl, rfl⟩, rfl, ⟨rfl, rfl⟩, rfl, rfl, rfl⟩

/-- A key skip on a key that exists: the latch is cleared, and PC moves on by what it held. -/
theorem next_of_keySkip {o : Host.Outcome State Fault Refusal} {s : State} {k : Fin 16} {b : Bool} {w : Word}
    (ho : o = .next ((s.setKey k false).advanceSkip b)) (hw : (if b then s.pc + 4 else s.pc + 2) = w) :
    ∃ t, o = .next t ∧ t.pc = w ∧ (∀ j : Fin 16, t.key[j.val] = if j.val = k.val then false else s.key[j.val]) ∧
      KeepsRegsExcept [] s t ∧ KeepsMemory s t ∧ KeepsI s t ∧ KeepsTimers s t ∧ KeepsDisplay s t ∧ KeepsControl s t := by
  obtain ⟨hregs, hmem, hi, ⟨htimers, hdisp, _⟩, hcontrol⟩ := keepsAllButRegs_advanceSkip (s.setKey k false) b
  refine ⟨_, ho, ((s.setKey k false).advanceSkip_pc b).trans hw, fun j => ?_, hregs, hmem, hi, htimers, hdisp, hcontrol⟩
  simp only [State.advanceSkip_key, State.key_setKey, Fin.ext_iff]

/-- The two answers of a key skip, told apart by the value that names the key. -/
theorem answers_of_keyNumber {b : Byte} {reads : b.toNat < 16 → Prop} {faults : Prop}
    (h : (∃ hlt, reads hlt) ∨ 15 < b.toNat ∧ faults) : (∀ hlt, reads hlt) ∧ (b.toNat > 15 → faults) := by
  rcases h with ⟨hlt, hreads⟩ | ⟨hgt, hfaults⟩
  · exact ⟨fun _ => hreads, fun hgt => by omega⟩
  · exact ⟨fun hlt => by omega, fun _ => hfaults⟩

/-! ### Timers (R120, R121) -/

/-- The frame of the timers and PC written. -/
theorem keepsRest_of_timers_and_pc (s : State) (d b : Byte) (w : Word) :
    let t : State := { s with dt := d, st := b, pc := w }
    KeepsRegsExcept [] s t ∧ KeepsMemory s t ∧ KeepsI s t ∧ KeepsDisplay s t ∧ KeepsKeys s t ∧ KeepsControl s t :=
  ⟨fun _ _ => rfl, fun _ => rfl, rfl, rfl, rfl, ⟨rfl, rfl⟩, rfl, rfl, rfl⟩

theorem tickDown_eq_ofNat (t : Byte) : tickDown t = BitVec.ofNat 8 (t.toNat - 1) := by
  have := t.isLt
  apply BitVec.eq_of_toNat_eq
  rw [tickDown_toNat, BitVec.toNat_ofNat]
  omega

theorem soundOn_eq_decide_ne_zero (s : State) : soundOn s = decide (s.st ≠ 0) :=
  decide_eq_decide.mpr (Nat.pos_iff_ne_zero.trans (not_congr (BitVec.toNat_eq (y := 0)).symm))

/-! ### The host's key edges (R115; 40_cycle.md R74) -/

theorem hostKey_of_lt (k : Fin 16) (down : Bool) (s : State) : hostKey k.val down s = .next (s.setKey k down) :=
  dif_pos k.isLt

theorem hostKey_of_ge {k : Nat} (h : k ≥ 16) (down : Bool) (s : State) :
    hostKey k down s = .refused (.keyIndex k) := dif_neg (by omega)

/-! ### The obligations -/

/-- Settles O32: a value below 16 names a key, which is read and cleared, and a value above 15 raises the fault. -/
theorem keySkipsConsumeTheKey : Obligations.KeySkipsConsumeTheKey := by
  intro x s
  obtain ⟨hskp, hskpFault⟩ := answers_of_keyNumber (execSkp_cases x s)
  obtain ⟨hsknp, hsknpFault⟩ := answers_of_keyNumber (execSknp_cases x s)
  refine ⟨decode_of_encode_eq rfl (encode_skp x), decode_of_encode_eq rfl (encode_sknp x), fun h => ⟨?_, ?_⟩,
    fun h => ?_⟩
  · exact next_of_keySkip (hskp h) rfl
  · exact next_of_keySkip (hsknp h) (by cases s.key[(s.reg x).toNat] <;> rfl)
  · rw [← encode_skp, ← encode_sknp]
    exact ⟨hskpFault h, hsknpFault h⟩

/-- Settles O31: ReadClear writes its own latch alone, and the second read finds it clear. -/
theorem readClearConsumesTheKey : Obligations.ReadClearConsumesTheKey := fun s k =>
  ⟨rfl, s.key_setKey k false, (s.key_setKey k false k).trans (if_pos rfl), keepsRest_of_setKey s k false⟩

/-- Settles O33: the instruction writes the mode and PC alone, and its cost is 0. -/
theorem ldKEntersTheWait : Obligations.LdKEntersTheWait := fun x _ =>
  ⟨decode_of_encode_eq rfl (formatXKK_misc x 0x0A),
    ⟨_, rfl, rfl, rfl, fun _ _ => rfl, fun _ => rfl, rfl, ⟨⟨rfl, rfl⟩, rfl, rfl⟩, ⟨rfl, rfl⟩, rfl, rfl⟩,
    instructionStep_run⟩

/-- Settles O34: one register written, or one timer. -/
theorem timerInstructionsMoveTheTimers : Obligations.TimerInstructionsMoveTheTimers := fun x s =>
  ⟨⟨decode_of_encode_eq rfl (formatXKK_misc x 0x07), next_of_setReg rfl⟩,
    ⟨decode_of_encode_eq rfl (formatXKK_misc x 0x15), _, rfl, rfl, rfl, rfl,
      keepsRest_of_timers_and_pc s (s.reg x) s.st (s.pc + 2)⟩,
    decode_of_encode_eq rfl (formatXKK_misc x 0x18), _, rfl, rfl, soundOn_eq_decide_ne_zero _, rfl, rfl,
      keepsRest_of_timers_and_pc s s.dt (s.reg x) (s.pc + 2)⟩

/-- Settles O60: a key edge writes its latch or is refused, a tick writes the two timers, and the reads write nothing. -/
theorem hostKeysTicksAndReads : Obligations.HostKeysTicksAndReads := by
  intro p s
  refine ⟨fun k => ⟨?_, ?_⟩, fun k hk => ⟨?_, ?_⟩, ?_, rfl, ?_⟩
  · rw [hostOp, hostKey_of_lt]
    rfl
  · rw [hostOp, hostKey_of_lt]
    rfl
  · rw [hostOp, hostKey_of_ge hk]
    rfl
  · rw [hostOp, hostKey_of_ge hk]
    rfl
  · rw [hostOp, ← tickDown_eq_ofNat, ← tickDown_eq_ofNat]
    rfl
  · rw [hostOp, soundOn_eq_decide_ne_zero]

end Sys2Proof.Machine
end

section
/-! Faults (60_exceptions.md): the step on an invalid word, what each fault rests on, and that a fault changes the mode and
nothing else. -/

namespace Sys2Proof

/-! ### `Invalid` carries the word it was decoded from (30_encoding.md R56) -/

theorem eq_of_decodeAlu_invalid {w u : Word} (h : decodeAlu w = .invalid u) : u = w := by
  unfold decodeAlu at h
  split at h <;> cases h
  rfl

theorem eq_of_decodeMisc_invalid {w u : Word} (h : decodeMisc w = .invalid u) : u = w := by
  unfold decodeMisc at h
  split at h <;> cases h
  rfl

/-- Family by family: 8 and F by their own decoders, 0, 5, 9 and E by their conditions; the others have no invalid word. -/
theorem eq_of_decode_invalid {w u : Word} (h : decode w = .invalid u) : u = w := by
  unfold decode at h
  split at h
  case h_9 => exact eq_of_decodeAlu_invalid h
  case h_16 => exact eq_of_decodeMisc_invalid h
  case h_1 | h_6 | h_10 | h_15 =>
    split_ifs at h
    cases h
    rfl
  case h_17 =>
    cases h
    rfl
  all_goals cases h

end Sys2Proof

namespace Sys2Proof.Machine

/-! ### The invalid word (R128) -/

/-- Under any parameters a step on an invalid word takes the fault and reports its record. -/
theorem instructionStep_invalid {s : State} (p : Parameters) (hrun : s.mode = .run) (hpc : s.pc.toNat + 2 ≤ 4096)
    (hd : decode s.wordAtPc = .invalid s.wordAtPc) :
    instructionStep s p = .next
      (takeFault s (some s.wordAtPc) .illegalInstruction (.word s.wordAtPc),
        report (takeFault s (some s.wordAtPc) .illegalInstruction (.word s.wordAtPc)) 0) := by
  simp only [instructionStep, hrun, runStep, fetchWord_inRange hpc]
  rw [← State.wordAtPc, hd]

/-- Settles O37: `instructionStep_invalid` at the defaults, the record written out. -/
theorem invalidWordRaisesIllegalInstruction : Obligations.InvalidWordRaisesIllegalInstruction :=
  fun _ hrun hpc hd => instructionStep_invalid _ hrun hpc hd

/-! ### What an instruction's fault rests on (R127) -/

/-- The faults an instruction can raise, each with the condition that raises it, its cause and its info.
`raises_of_execWith` says that it raises no other. -/
inductive InstrRaises (p : Parameters) (s : State) : Instr → FaultKind → FaultInfo → Prop
  | fullStack (nnn : Word) (h : s.sp = 16) : InstrRaises p s (.call nnn) .stackOverflow (.pointer 16)
  | emptyStack (h : s.sp = 0) : InstrRaises p s .ret .stackUnderflow (.pointer 0)
  | skpKey (x : Reg) (h : 15 < (s.reg x).toNat) : InstrRaises p s (.skp x) .keyIndexOutOfRange (.key (s.reg x))
  | sknpKey (x : Reg) (h : 15 < (s.reg x).toNat) : InstrRaises p s (.sknp x) .keyIndexOutOfRange (.key (s.reg x))
  | underflow (x y : Reg) (hp : p.rsubFaults = true) (h : (s.reg y).toNat < (s.reg x).toNat) :
      InstrRaises p s (.subn x y) .arithmeticUnderflow (.operands (s.reg x) (s.reg y))
  | sprite (x y : Reg) (n : Nat) (hn : 0 < n) (h : 4096 < s.i.toNat + n) :
      InstrRaises p s (.drw x y n) .addressOutOfRange (.address (max s.i.toNat 4096))
  | digits (x : Reg) (h : 4096 < s.i.toNat + 3) :
      InstrRaises p s (.ldBVx x) .addressOutOfRange (.address (max s.i.toNat 4096))
  | storedBlock (x : Reg) (h : 4096 < s.i.toNat + x.val + 1) :
      InstrRaises p s (.ldMemVx x) .addressOutOfRange (.address (max s.i.toNat 4096))
  | loadedBlock (x : Reg) (h : 4096 < s.i.toNat + x.val + 1) :
      InstrRaises p s (.ldVxMem x) .addressOutOfRange (.address (max s.i.toNat 4096))

/-- An instruction in `s` ended in `t` by one of its faults, taken from the step's start. -/
def EndsByFault (p : Parameters) (i : Instr) (s t : State) : Prop :=
  ∃ c d, InstrRaises p s i c d ∧ t = takeFault s (some (encode i)) c d

/-- An outcome has one next state, so if that is the state with the fault taken, it ended by the fault. -/
theorem InstrRaises.endsByFault {p : Parameters} {i : Instr} {s t : State} {o : Host.Outcome State Fault Refusal}
    {c : FaultKind} {d : FaultInfo} (hr : InstrRaises p s i c d) (ho : o = .next t)
    (hu : o = .next (takeFault s (some (encode i)) c d)) : EndsByFault p i s t :=
  ⟨c, d, hr, Host.Outcome.next.inj (ho.symm.trans hu)⟩

/-- An outcome that kept mode `run` is not one in mode `faulted`. -/
theorem false_of_next_run {s t u : State} {r : FaultRecord} {o : Host.Outcome State Fault Refusal} (hrun : s.mode = .run)
    (hf : t.mode = .faulted r) (ho : o = .next t) (hu : o = .next u) (hm : u.mode = s.mode) : False := by
  obtain rfl : u = t := Host.Outcome.next.inj (hu.symm.trans ho)
  cases (hm.trans hrun).symm.trans hf

/-- If an instruction ends faulted, one of its listed conditions held and the fault was taken from the step's start. An
instruction with a fault condition is split by what it can answer; each of the others completes. -/
theorem raises_of_execWith {p : Parameters} {i : Instr} {s t : State} {r : FaultRecord} (hrun : s.mode = .run)
    (h : execWith p i s = .next t) (hf : t.mode = .faulted r) : EndsByFault p i s t := by
  have completes {u : State} (hu : execWith p i s = .next u) (hm : u.mode = s.mode) : EndsByFault p i s t :=
    (false_of_next_run hrun hf h hu hm).elim
  cases i with
  | call nnn =>
    rcases execCall_cases nnn s with ⟨_, he⟩ | ⟨hsp, he⟩ | ⟨_, he⟩
    · exact completes he rfl
    · exact (InstrRaises.fullStack nnn hsp).endsByFault h he
    · cases he.symm.trans h
  | ret =>
    rcases execRet_cases s with ⟨_, _, _, he⟩ | ⟨hsp, he⟩ | ⟨_, he⟩
    · exact completes he rfl
    · exact (InstrRaises.emptyStack hsp).endsByFault h he
    · cases he.symm.trans h
  | skp x =>
    rcases execSkp_cases x s with ⟨_, he⟩ | ⟨hb, he⟩
    · exact completes he (State.advanceSkip_mode ..)
    · exact (InstrRaises.skpKey x hb).endsByFault h he
  | sknp x =>
    rcases execSknp_cases x s with ⟨_, he⟩ | ⟨hb, he⟩
    · exact completes he (State.advanceSkip_mode ..)
    · exact (InstrRaises.sknpKey x hb).endsByFault h he
  | subn x y =>
    rcases reverseSubtract_cases p.rsubFaults x y s with ⟨hp, hlt, he⟩ | he
    · exact (InstrRaises.underflow x y hp hlt).endsByFault h he
    · exact completes he rfl
  | drw x y n =>
    rcases execDrw_cases x y n s with ⟨_, _, _, he⟩ | ⟨hn, hb, he⟩
    · exact completes he rfl
    · exact (InstrRaises.sprite x y n hn hb).endsByFault h he
  | ldBVx x =>
    rcases execLdBVx_cases x s with ⟨_, he⟩ | ⟨hb, he⟩
    · exact completes he rfl
    · exact (InstrRaises.digits x hb).endsByFault h he
  | ldMemVx x =>
    rcases execLdMemVx_cases x s with ⟨_, he⟩ | ⟨hb, he⟩
    · exact completes he rfl
    · exact (InstrRaises.storedBlock x hb).endsByFault h he
  | ldVxMem x =>
    rcases execLdVxMem_cases x s with ⟨_, he⟩ | ⟨hb, he⟩
    · exact completes he rfl
    · exact (InstrRaises.loadedBlock x hb).endsByFault h he
  | ldVxK x =>
    obtain rfl := Host.Outcome.next.inj h
    cases hf
  | seImm | sneImm | seReg | sneReg => exact completes rfl (State.advanceSkip_mode ..)
  | _ => exact completes rfl rfl

/-! ### What a step's fault rests on (R127, R130) -/

/-- The faults a step in mode `run` can raise, each with its record's word, its cause and its info: of the fetch, of an
invalid word, or of the instruction about to run. -/
inductive StepRaises (p : Parameters) (s : State) : Option Word → FaultKind → FaultInfo → Prop
  | fetch (h : ¬s.pc.toNat + 2 ≤ 4096) : StepRaises p s none .addressOutOfRange (.address (max s.pc.toNat 4096))
  | invalidWord (hpc : s.pc.toNat + 2 ≤ 4096) (hd : decode s.wordAtPc = .invalid s.wordAtPc) :
      StepRaises p s (some s.wordAtPc) .illegalInstruction (.word s.wordAtPc)
  | instr {i : Instr} {c : FaultKind} {d : FaultInfo} (hi : s.AboutToRun i) (hr : InstrRaises p s i c d) :
      StepRaises p s (some s.wordAtPc) c d

/-- If a step in mode `run` ends faulted, one of the listed conditions held and the fault was taken from the state at the
step's start. The word of an instruction's record is the fetched one, since encoding undoes decoding. -/
theorem stepRaises_of_stepWith {p : Parameters} {s t : State} {r : FaultRecord} (hrun : s.mode = .run)
    (h : stepWith p s = .next t) (hf : t.mode = .faulted r) :
    ∃ u c d, StepRaises p s u c d ∧ t = takeFault s u c d := by
  rcases stepWith_cases p s with ⟨i, hi, he⟩ | ⟨_, hpc, he⟩ | ⟨_, hpc, w, hd, he⟩ | ⟨_, hm, _⟩ | ⟨_, hm, _⟩
  · obtain ⟨c, d, hr, ht⟩ := raises_of_execWith hrun (he.symm.trans h) hf
    rw [(encodeOfDecodeIsTheWord _ i hi.decodes).1] at ht
    exact ⟨_, c, d, .instr hi hr, ht⟩
  · exact ⟨_, _, _, .fetch hpc, Host.Outcome.next.inj (h.symm.trans he)⟩
  · obtain rfl := eq_of_decode_invalid hd
    exact ⟨_, _, _, .invalidWord hpc hd, Host.Outcome.next.inj (h.symm.trans he)⟩
  · cases hrun.symm.trans hm
  · cases hrun.symm.trans hm

/-- The word of the record: there is one exactly if both bytes at PC are in memory. -/
theorem StepRaises.word_eq {p : Parameters} {s : State} {u : Option Word} {c : FaultKind} {d : FaultInfo}
    (h : StepRaises p s u c d) : u = if s.pc.toNat + 2 ≤ 4096 then some s.wordAtPc else none := by
  cases h with
  | fetch hpc => rw [if_neg hpc]
  | invalidWord hpc _ => rw [if_pos hpc]
  | instr hi _ => rw [if_pos hi.fetchable]

/-! ### The obligations -/

/-- Settles O43: a fault is `takeFault` of the state at the step's start. -/
theorem faultsArePrecise : Obligations.FaultsArePrecise := by
  intro p s t r hrun h hf
  obtain ⟨u, c, d, hr, rfl⟩ := stepRaises_of_stepWith hrun h hf
  obtain rfl := Mode.faulted.inj hf
  exact ⟨rfl, rfl, hr.word_eq⟩

/-- Settles O44: each condition of `StepRaises` and `InstrRaises` is one of the list, the code being the cause's. -/
theorem faultCausesAreTheListedOnes : Obligations.FaultCausesAreTheListedOnes := by
  intro p s t r hrun h hf
  obtain ⟨u, c, d, hr, rfl⟩ := stepRaises_of_stepWith hrun h hf
  obtain rfl := Mode.faulted.inj hf
  cases hr with
  | invalidWord hpc hd => exact .inl ⟨rfl, rfl, hpc, hd, rfl⟩
  | fetch hpc => exact .inr (.inl ⟨rfl, rfl, .inl ⟨Nat.lt_of_not_le hpc, rfl⟩⟩)
  | instr hi hr =>
    cases hr with
    | sprite x y n hn hb => exact .inr (.inl ⟨rfl, rfl, .inr ⟨.inl ⟨x, y, n, hi, hn, hb⟩, rfl⟩⟩)
    | digits x hb => exact .inr (.inl ⟨rfl, rfl, .inr ⟨.inr (.inl ⟨x, hi, hb⟩), rfl⟩⟩)
    | storedBlock x hb => exact .inr (.inl ⟨rfl, rfl, .inr ⟨.inr (.inr (.inl ⟨x, hi, hb⟩)), rfl⟩⟩)
    | loadedBlock x hb => exact .inr (.inl ⟨rfl, rfl, .inr ⟨.inr (.inr (.inr ⟨x, hi, hb⟩)), rfl⟩⟩)
    | fullStack nnn hsp => exact .inr (.inr (.inl ⟨rfl, rfl, ⟨nnn, hi⟩, hsp, rfl⟩))
    | emptyStack hsp => exact .inr (.inr (.inr (.inl ⟨rfl, rfl, hi, hsp, rfl⟩)))
    | skpKey x hb => exact .inr (.inr (.inr (.inr (.inl ⟨rfl, rfl, x, .inl hi, hb, rfl⟩))))
    | sknpKey x hb => exact .inr (.inr (.inr (.inr (.inl ⟨rfl, rfl, x, .inr hi, hb, rfl⟩))))
    | underflow x y hp hlt => exact .inr (.inr (.inr (.inr (.inr ⟨rfl, rfl, hp, x, y, hi, hlt, rfl⟩))))

end Sys2Proof.Machine
end

section
/-! Reset and load (70_reset_and_hazards.md): the state a reset leaves, element by element, and that it depends on nothing but
the remembered image, which a load alone changes. -/

namespace Sys2Proof.Machine

/-! ### What a reset leaves (R141) -/

/-- FONT over empty memory reads as FONT, and as 0 above it. -/
theorem Memory.read_writeBytes_font (f : Font) (a : Nat) :
    (Memory.writeBytes [] 0 f.toList).read a = if h : a < 0x50 then f[a] else 0 := by
  rw [Memory.read_writeBytes, if_pos a.zero_le, Nat.sub_zero]
  by_cases h : a < 0x50
  · rw [dif_pos h, List.getD_eq_getElem _ _ (by simpa using h), Vector.getElem_toList]
  · have hle : 80 ≤ a := Nat.le_of_not_lt h
    rw [dif_neg h, List.getD_eq_default _ _ (by simpa using hle)]
    exact unlistedByte_of_le hle

/-- The image stands from 0x200 on, so it covers no byte of FONT; a byte under neither is 0. -/
theorem read_hostReset (p : Parameters) (s : State) (a : Nat) :
    (hostReset s p).mem.read a =
      if h : a < 0x50 then p.font[a]
      else if 0x200 ≤ a ∧ a < 0x200 + s.image.length then s.image.getD (a - 0x200) 0 else 0 := by
  have hread : (hostReset s p).mem.read a =
      if 0x200 ≤ a then s.image.getD (a - 0x200) (if h : a < 0x50 then p.font[a] else 0)
      else if h : a < 0x50 then p.font[a] else 0 := by
    rw [← Memory.read_writeBytes_font]
    exact Memory.read_writeBytes ..
  rw [hread]
  by_cases hfont : a < 0x50
  · rw [if_neg (by omega), dif_pos hfont, dif_pos hfont]
  · rw [dif_neg hfont, dif_neg hfont]
    by_cases hbase : 0x200 ≤ a
    · by_cases himage : a < 0x200 + s.image.length
      · rw [if_pos hbase, if_pos ⟨hbase, himage⟩]
      · rw [if_pos hbase, if_neg (himage ·.2), List.getD_eq_default]
        omega
    · rw [if_neg hbase, if_neg (hbase ·.1)]

@[simp] theorem pixel_blank (px py : Nat) : pixel Grid.blank px py = false := by
  simp [pixel, Grid.blank]

/-- Settles O57: memory by `read_hostReset`, every other element by the reset values of `State.reset`. -/
theorem resetRestoresEveryElement : Obligations.ResetRestoresEveryElement :=
  ⟨rfl, fun p s _ =>
    ⟨read_hostReset p s, fun r => Vector.getElem_replicate r.isLt, rfl, rfl, rfl, fun j => Vector.getElem_replicate j.isLt,
      rfl, rfl, pixel_blank, fun k => Vector.getElem_replicate k.isLt, rfl, rfl⟩⟩

/-! ### Load (R142, R144) -/

/-- Settles O58: by the comparison with MAX_IMAGE. -/
theorem loadRemembersTheImageAndResets : Obligations.LoadRemembersTheImageAndResets := fun _ _ _ =>
  ⟨fun hfits => congrArg silent (if_pos hfits), fun hlong => congrArg silent (if_neg (Nat.not_le_of_gt hlong))⟩

/-! ### What a run without a load leaves of the image (10_state.md R28) -/

theorem ExecEffect.keepsImage {i : Instr} {s t : State} (h : ExecEffect i s t) : KeepsImage s t := by
  cases h with
  | pushes | pops | waits | faults => rfl
  | _ => simp [KeepsImage]

theorem keepsImage_pollKeys (x : Reg) (s : State) : KeepsImage s (pollKeys x s) := by
  rcases pollKeys_cases x s with ⟨k, _, _, he⟩ | ⟨_, he⟩ <;> rw [he] <;> rfl

theorem keepsImage_of_stepWith {p : Parameters} {s t : State} (h : stepWith p s = .next t) : KeepsImage s t := by
  rcases stepWith_cases p s with ⟨i, _, he⟩ | ⟨_, _, he⟩ | ⟨_, _, w, _, he⟩ | ⟨x, _, he⟩ | ⟨_, _, he⟩ <;> rw [he] at h
  · exact (effect_of_execWith h).keepsImage
  all_goals obtain rfl := Host.Outcome.next.inj h
  · exact takeFault_image ..
  · exact takeFault_image ..
  · exact keepsImage_pollKeys x s
  · rfl

/-- Of the host operations only a load changes the image. -/
theorem keepsImage_of_hostOp {p : Parameters} {op : HostOp} {s t : State} {r : HostResult}
    (hload : ∀ bytes, op ≠ .loadProgram bytes) (h : hostOp op s p = .next (t, r)) : KeepsImage s t := by
  cases op with
  | loadProgram bytes => exact absurd rfl (hload bytes)
  | keyPressed k | keyReleased k =>
    obtain ⟨_, rfl⟩ := hostKey_next (silent_next h)
    rfl
  | instructionStep =>
    obtain ⟨_, hstep⟩ := reportStep_next h
    exact keepsImage_of_stepWith (stepWith_of_instructionStep hstep)
  | reset | frequencyStep | pixelStates | soundOn =>
    obtain ⟨rfl, _⟩ := Prod.mk.inj (Host.Outcome.next.inj h)
    rfl

theorem keepsImage_of_runSchedule {p : Parameters} {ops : List HostOp} {s t : State} {rs : List HostResult}
    (hload : ∀ bytes, HostOp.loadProgram bytes ∉ ops) (h : runSchedule ops s p = .next (t, rs)) : KeepsImage s t := by
  induction ops generalizing s rs with
  | nil =>
    obtain ⟨rfl, _⟩ := Prod.mk.inj (Host.Outcome.next.inj h)
    rfl
  | cons op ops ih =>
    obtain ⟨u, r, rs', hop, hrest, _⟩ := runSchedule_cons_next.mp h
    have hfirst : KeepsImage s u :=
      keepsImage_of_hostOp (fun bytes he => hload bytes (he ▸ List.mem_cons_self)) hop
    have hlater : KeepsImage u t := ih (fun bytes hmem => hload bytes (List.mem_cons_of_mem op hmem)) hrest
    exact hlater.trans hfirst

/-! ### What a reset forgets (R146) -/

/-- Of a state, a reset keeps the image and the model's own counter of draws, and reads nothing else. -/
theorem hostReset_eq_of_keepsImage {s t : State} (p : Parameters) (h : KeepsImage s t) :
    { hostReset t p with draws := 0 } = { hostReset s p with draws := 0 } := by
  rw [KeepsImage] at h
  simp only [hostReset, h]

/-- Settles O59: a reset depends on the image alone, which a reset and a schedule without a load keep. -/
theorem resetForgetsTheRun : Obligations.ResetForgetsTheRun :=
  ⟨fun _ _ => rfl, fun p _ _ _ _ hload h => hostReset_eq_of_keepsImage p (keepsImage_of_runSchedule hload h)⟩

end Sys2Proof.Machine
end
